-- ==== Sys2Proof/Word.lean ====
section
/-! DEFINITION. The byte, the nine-byte frame and the two pads (spec/00_scope.md R8, R11, R12). -/

namespace Sys2Proof

/-- A byte: an unsigned 8-bit value, bit 0 the least significant (R11). -/
abbrev Byte := BitVec 8

/-- A Frame: nine bytes, byte 0 the first on the wire (R12). -/
abbrev Frame := Vector Byte 9

/-- The pad index `p`: 0 is pad 1, 1 is pad 2 (R12). -/
inductive Pad where
  | pad1
  | pad2
deriving DecidableEq, Repr, Inhabited

/-- The pad that a pad bit names (30_encoding.md R96, R98). -/
def Pad.ofBit : Bool → Pad
  | false => .pad1
  | true => .pad2

/-- The pad bit of a pad. -/
def Pad.bit : Pad → Bool
  | .pad1 => false
  | .pad2 => true

/-- One element for each pad: what the spec writes `X[p]` (R13). -/
structure PerPad (α : Type) where
  pad1 : α
  pad2 : α
deriving DecidableEq, Repr, Inhabited

/-- `X[p]`. -/
def PerPad.get {α : Type} (x : PerPad α) : Pad → α
  | .pad1 => x.pad1
  | .pad2 => x.pad2

/-- `X[p] <- v`. -/
def PerPad.set {α : Type} (x : PerPad α) (p : Pad) (v : α) : PerPad α :=
  match p with
  | .pad1 => { x with pad1 := v }
  | .pad2 => { x with pad2 := v }

end Sys2Proof
end

