-- ==== Sys2Proof/Config.lean ====
section
/-! DEFINITION. What an implementation fixes and what the spec leaves open. Every opaque constant here
is a free value: it has no body, so no proof can use what it is. -/

namespace Sys2Proof

/-- A timing profile: four durations in ticks (spec/00_scope.md R9, spec/10_state.md R24). -/
structure TimingProfile where
  tAtt : Nat
  tInter : Nat
  tHalf : Nat
  tAck : Nat
deriving DecidableEq, Repr, Inhabited

/-- Every duration is at least 1 (R9). -/
abbrev TimingProfile.positive (t : TimingProfile) : Prop :=
  1 ≤ t.tAtt ∧ 1 ≤ t.tInter ∧ 1 ≤ t.tHalf ∧ 1 ≤ t.tAck

/-- The three 1-bit strap levels, and the three fields of `CFG` (spec/10_state.md R23, R45). -/
structure Straps where
  platform : Bool
  hasAtt2 : Bool
  hasAck : Bool
deriving DecidableEq, Repr, Inhabited

/-- Free value (log 4): for each platform variant the four durations less one. -/
opaque Config.profileLessOne : Bool → TimingProfile

/-- `PROFILE(v)` (R9): four durations, each a natural number of ticks and each at least 1. -/
def Config.profile (v : Bool) : TimingProfile where
  tAtt := (Config.profileLessOne v).tAtt + 1
  tInter := (Config.profileLessOne v).tInter + 1
  tHalf := (Config.profileLessOne v).tHalf + 1
  tAck := (Config.profileLessOne v).tAck + 1

/-- Free value (log 5): the strap levels at the reset that `State.reset` is the result of. -/
opaque Config.straps : Straps

/-- Free value (log 9): the level of `PS2_DAT` on an edge that no stimulus describes. -/
opaque Config.freeDat : Nat → Bool

/-- Free value (log 7): `Q_RESULT` where the spec leaves it unspecified. -/
opaque Config.freeQResult : Nat → Byte

end Sys2Proof
end

