-- ==== Sys2Proof/Syntax.lean ====
section
/-! DEFINITION. The operation vocabulary of spec/30_encoding.md R90 that has an encoding: one constructor for
each row of spec/opcode_table.json. Ignored operand fields are kept, so that decoding loses no bit. -/

namespace Sys2Proof

inductive Instr where
  /-- POLL (R150). `a`, `b`: the operands the engine ignores (R97). -/
  | poll (pad : Pad) (a b : Byte)
  /-- SETMODE (R151). -/
  | setMode (pad : Pad) (mode lock : Byte)
  /-- ENMOTORS (R152). -/
  | enMotors (pad : Pad) (e1 e2 : Byte)
  /-- SETMOTORLEVELS (R153). -/
  | setMotorLevels (pad : Pad) (m1 m2 : Byte)
  /-- ISDOWN (R170). `n`: the button number. -/
  | isDown (pad : Pad) (n : BitVec 4)
  /-- PRESSED (R171). -/
  | pressed (pad : Pad) (n : BitVec 4)
  /-- RELEASED (R172). -/
  | released (pad : Pad) (n : BitVec 4)
  /-- AXIS (R173). `sel`: the whole selector, whose bits 3:2 must be 0. -/
  | axis (pad : Pad) (sel : BitVec 4)
  /-- ISANALOG (R174). `sel`: the ignored selector (R99). -/
  | isAnalog (pad : Pad) (sel : BitVec 4)
  /-- ISDIGITAL (R175). -/
  | isDigital (pad : Pad) (sel : BitVec 4)
  /-- POLL_CMD (R142). -/
  | pollCmd (m1 m2 : Byte)
  /-- ENTER_CFG (R143). -/
  | enterCfg
  /-- EXIT_CFG (R144). -/
  | exitCfg
  /-- SET_MODE_CMD (R145). -/
  | setModeCmd (mode lock : Byte)
  /-- EN_MOTORS_CMD (R146). -/
  | enMotorsCmd (e1 e2 : Byte)
deriving DecidableEq, Repr

end Sys2Proof
end

