-- ==== Sys2Proof/WellFormed.lean ====
section
/-! DEFINITION. Which instructions an encoding can express (spec/30_encoding.md R99). Every operand but one is
as wide as its field and every value of it is accepted (R97), so the only check is AXIS's selector. -/

namespace Sys2Proof

/-- AXIS: `Q_SEL[3:2]` must be `0b00` (R99, R173). -/
def axisSelectorOk (sel : BitVec 4) : Bool := decide (sel.extractLsb' 2 2 = 0#2)

def Instr.wellFormed : Instr → Bool
  | .poll _ _ _ => true
  | .setMode _ _ _ => true
  | .enMotors _ _ _ => true
  | .setMotorLevels _ _ _ => true
  | .isDown _ _ => true
  | .pressed _ _ => true
  | .released _ _ => true
  | .axis _ sel => axisSelectorOk sel
  | .isAnalog _ _ => true
  | .isDigital _ _ => true
  | .pollCmd _ _ => true
  | .enterCfg => true
  | .exitCfg => true
  | .setModeCmd _ _ => true
  | .enMotorsCmd _ _ => true

end Sys2Proof
end

