-- ==== Sys2Proof/Decode.lean ====
section
/-! DEFINITION. The decoder and the encoder (spec/30_encoding.md R91 to R100, R103, R106). Three formats have
words of their own, and the port a word stands on says which (R91: every format has a fixed length and nothing
in a word tells it). -/

namespace Sys2Proof

/-- A word of one of the three encoded formats (R91). -/
inductive CodeWord where
  /-- `HOSTCMD`, 20 bits (R96). -/
  | hostCmd (hc : BitVec 20)
  /-- `QUERY`, 8 bits (R98). -/
  | query (qw : BitVec 8)
  /-- `WIRECMD`, nine bytes, byte 0 first (R92). -/
  | wireCmd (f : Frame)
deriving DecidableEq, Repr

/-- Why a word is no instruction (R103). -/
inductive Reject where
  /-- `CMD_OP` in 0, 5, 6, 7 (R103 a). -/
  | reservedHostOp (op : BitVec 3)
  /-- `Q_OP` in 6, 7 (R103 b). -/
  | reservedQueryOp (op : BitVec 3)
  /-- AXIS with `Q_SEL[3:2]` not 0 (R103 c). -/
  | reservedAxisSelector (sel : BitVec 4)
  /-- Nine bytes that are none of the five wire commands (R103 f). -/
  | unknownWireCommand
deriving DecidableEq, Repr

/-! Fields of the `HOSTCMD` word (R96) and of the `QUERY` word (R98). -/

def hostOp (hc : BitVec 20) : BitVec 3 := hc.extractLsb' 17 3

def hostPad (hc : BitVec 20) : Pad := Pad.ofBit (hc.getLsbD 16)

def hostA (hc : BitVec 20) : Byte := hc.extractLsb' 8 8

def hostB (hc : BitVec 20) : Byte := hc.extractLsb' 0 8

def queryOp (qw : BitVec 8) : BitVec 3 := qw.extractLsb' 5 3

def queryPad (qw : BitVec 8) : Pad := Pad.ofBit (qw.getLsbD 4)

def querySel (qw : BitVec 8) : BitVec 4 := qw.extractLsb' 0 4

/-- The operation on the host command port (R96, R103 a). -/
def decodeHostCmd (hc : BitVec 20) : Except Reject Instr :=
  match hostOp hc with
  | 1#3 => .ok (.poll (hostPad hc) (hostA hc) (hostB hc))
  | 2#3 => .ok (.setMode (hostPad hc) (hostA hc) (hostB hc))
  | 3#3 => .ok (.enMotors (hostPad hc) (hostA hc) (hostB hc))
  | 4#3 => .ok (.setMotorLevels (hostPad hc) (hostA hc) (hostB hc))
  | op => .error (.reservedHostOp op)

/-- The query on the query port (R98, R99, R103 b, c). -/
def decodeQuery (qw : BitVec 8) : Except Reject Instr :=
  match queryOp qw with
  | 0#3 => .ok (.isDown (queryPad qw) (querySel qw))
  | 1#3 => .ok (.pressed (queryPad qw) (querySel qw))
  | 2#3 => .ok (.released (queryPad qw) (querySel qw))
  | 3#3 =>
    if (querySel qw).extractLsb' 2 2 = 0#2 then .ok (.axis (queryPad qw) (querySel qw))
    else .error (.reservedAxisSelector (querySel qw))
  | 4#3 => .ok (.isAnalog (queryPad qw) (querySel qw))
  | 5#3 => .ok (.isDigital (queryPad qw) (querySel qw))
  | op => .error (.reservedQueryOp op)

/-- The wire command that nine bytes are (R92). -/
def decodeWireCmd (f : Frame) : Except Reject Instr :=
  if f = (#v[0x01, 0x42, 0x00, f[3], f[4], 0x00, 0x00, 0x00, 0x00] : Frame) then .ok (.pollCmd f[3] f[4])
  else if f = (#v[0x01, 0x43, 0x00, 0x01, 0x00, 0x00, 0x00, 0x00, 0x00] : Frame) then .ok .enterCfg
  else if f = (#v[0x01, 0x43, 0x00, 0x00, 0x5A, 0x5A, 0x5A, 0x5A, 0x5A] : Frame) then .ok .exitCfg
  else if f = (#v[0x01, 0x44, 0x00, f[3], f[4], 0x00, 0x00, 0x00, 0x00] : Frame) then .ok (.setModeCmd f[3] f[4])
  else if f = (#v[0x01, 0x4D, 0x00, f[3], f[4], 0xFF, 0xFF, 0xFF, 0xFF] : Frame) then .ok (.enMotorsCmd f[3] f[4])
  else .error .unknownWireCommand

/-- The decoder, total on the words of every format. -/
def decode : CodeWord → Except Reject Instr
  | .hostCmd hc => decodeHostCmd hc
  | .query qw => decodeQuery qw
  | .wireCmd f => decodeWireCmd f

/-! The encoder, from the same tables (R92, R96, R98). -/

/-- `HC[19:0] = {CMD_OP[2:0], CMD_PAD, CMD_A[7:0], CMD_B[7:0]}` (R96). -/
def hostWord (op : BitVec 3) (p : Pad) (a b : Byte) : BitVec 20 :=
  op ++ BitVec.ofBool p.bit ++ a ++ b

/-- `QW[7:0] = {Q_OP[2:0], Q_PAD, Q_SEL[3:0]}` (R98). -/
def queryWord (op : BitVec 3) (p : Pad) (sel : BitVec 4) : BitVec 8 :=
  op ++ BitVec.ofBool p.bit ++ sel

def encode : Instr → CodeWord
  | .poll p a b => .hostCmd (hostWord 1#3 p a b)
  | .setMode p mode lock => .hostCmd (hostWord 2#3 p mode lock)
  | .enMotors p e1 e2 => .hostCmd (hostWord 3#3 p e1 e2)
  | .setMotorLevels p m1 m2 => .hostCmd (hostWord 4#3 p m1 m2)
  | .isDown p n => .query (queryWord 0#3 p n)
  | .pressed p n => .query (queryWord 1#3 p n)
  | .released p n => .query (queryWord 2#3 p n)
  | .axis p sel => .query (queryWord 3#3 p sel)
  | .isAnalog p sel => .query (queryWord 4#3 p sel)
  | .isDigital p sel => .query (queryWord 5#3 p sel)
  | .pollCmd m1 m2 => .wireCmd #v[0x01, 0x42, 0x00, m1, m2, 0x00, 0x00, 0x00, 0x00]
  | .enterCfg => .wireCmd #v[0x01, 0x43, 0x00, 0x01, 0x00, 0x00, 0x00, 0x00, 0x00]
  | .exitCfg => .wireCmd #v[0x01, 0x43, 0x00, 0x00, 0x5A, 0x5A, 0x5A, 0x5A, 0x5A]
  | .setModeCmd mode lock => .wireCmd #v[0x01, 0x44, 0x00, mode, lock, 0x00, 0x00, 0x00, 0x00]
  | .enMotorsCmd e1 e2 => .wireCmd #v[0x01, 0x4D, 0x00, e1, e2, 0xFF, 0xFF, 0xFF, 0xFF]

/-! The words as the numbers of spec/opcode_table.json (R93, R106). -/

/-- The formats that have rows in the table (R91, R106). -/
inductive Format where
  | hostCmd
  | query
  | wireCmd
deriving DecidableEq, Repr

/-- The format of a word. -/
def CodeWord.format : CodeWord → Format
  | .hostCmd _ => .hostCmd
  | .query _ => .query
  | .wireCmd _ => .wireCmd

/-- A word as one number: a nine-byte word with byte 0 in the most significant place (R93). -/
def CodeWord.number : CodeWord → Nat
  | .hostCmd hc => hc.toNat
  | .query qw => qw.toNat
  | .wireCmd f => f.toList.foldl (fun n b => n * 256 + b.toNat) 0

/-- A row of the table: a word `w` selects it when `(w & mask) == pattern` (R106). -/
structure TableRow where
  mnemonic : String
  format : Format
  pattern : Nat
  mask : Nat
deriving DecidableEq, Repr

/-- The row is selected by the word. -/
def TableRow.selects (r : TableRow) (c : CodeWord) : Bool :=
  decide (r.format = c.format ∧ c.number &&& r.mask = r.pattern)

/-- `HOSTCMD` rows, 20 bits. -/
def hostCmdRows : List TableRow :=
  [⟨"POLL", .hostCmd, 0x20000, 0xE0000⟩,
   ⟨"SETMODE", .hostCmd, 0x40000, 0xE0000⟩,
   ⟨"ENMOTORS", .hostCmd, 0x60000, 0xE0000⟩,
   ⟨"SETMOTORLEVELS", .hostCmd, 0x80000, 0xE0000⟩]

/-- `QUERY` rows, 8 bits. -/
def queryRows : List TableRow :=
  [⟨"ISDOWN", .query, 0x00, 0xE0⟩,
   ⟨"PRESSED", .query, 0x20, 0xE0⟩,
   ⟨"RELEASED", .query, 0x40, 0xE0⟩,
   ⟨"AXIS", .query, 0x60, 0xEC⟩,
   ⟨"ISANALOG", .query, 0x80, 0xE0⟩,
   ⟨"ISDIGITAL", .query, 0xA0, 0xE0⟩]

/-- `WIRECMD` rows, 72 bits. -/
def wireCmdRows : List TableRow :=
  [⟨"POLL_CMD", .wireCmd, 0x014200000000000000, 0xFFFFFF0000FFFFFFFF⟩,
   ⟨"ENTER_CFG", .wireCmd, 0x014300010000000000, 0xFFFFFFFFFFFFFFFFFF⟩,
   ⟨"EXIT_CFG", .wireCmd, 0x014300005A5A5A5A5A, 0xFFFFFFFFFFFFFFFFFF⟩,
   ⟨"SET_MODE_CMD", .wireCmd, 0x014400000000000000, 0xFFFFFF0000FFFFFFFF⟩,
   ⟨"EN_MOTORS_CMD", .wireCmd, 0x014D000000FFFFFFFF, 0xFFFFFF0000FFFFFFFF⟩]

/-- The fifteen rows of spec/opcode_table.json. -/
def opcodeTable : List TableRow := hostCmdRows ++ queryRows ++ wireCmdRows

/-- The mnemonic of an instruction, as the table spells it. -/
def Instr.mnemonic : Instr → String
  | .poll _ _ _ => "POLL"
  | .setMode _ _ _ => "SETMODE"
  | .enMotors _ _ _ => "ENMOTORS"
  | .setMotorLevels _ _ _ => "SETMOTORLEVELS"
  | .isDown _ _ => "ISDOWN"
  | .pressed _ _ => "PRESSED"
  | .released _ _ => "RELEASED"
  | .axis _ _ => "AXIS"
  | .isAnalog _ _ => "ISANALOG"
  | .isDigital _ _ => "ISDIGITAL"
  | .pollCmd _ _ => "POLL_CMD"
  | .enterCfg => "ENTER_CFG"
  | .exitCfg => "EXIT_CFG"
  | .setModeCmd _ _ => "SET_MODE_CMD"
  | .enMotorsCmd _ _ => "EN_MOTORS_CMD"

/-- `W[71:0] = {b0, .., b8}`: byte `i` is `W[71 - 8i : 64 - 8i]` (R93). -/
def frameOfNumber (w : Nat) : Frame := Vector.ofFn fun i => BitVec.ofNat 8 (w >>> (64 - 8 * i.val))

/-- The word whose bits, numbered as the table numbers them, are `w`, in the format whose length in whole
bytes holds `nbits` bits (8, 24 or 72). A number wider than its format is no word. -/
def codeWordOfNumber (nbits w : Nat) : Option CodeWord :=
  if nbits ≤ 8 then if w < 2 ^ 8 then some (.query (BitVec.ofNat 8 w)) else none
  else if nbits ≤ 32 then if w < 2 ^ 20 then some (.hostCmd (BitVec.ofNat 20 w)) else none
  else if nbits ≤ 72 then if w < 2 ^ 72 then some (.wireCmd (frameOfNumber w)) else none
  else none

/-- The instruction the decoder reads from a word given as a number of the table. -/
def decodeTableWord (nbits w : Nat) : Option Instr :=
  match codeWordOfNumber nbits w with
  | some c =>
    match decode c with
    | .ok i => some i
    | .error _ => none
  | none => none

end Sys2Proof
end

