-- ==== Sys2Proof/Machine/State.lean ====
section
/-! DEFINITION. The state of the engine (spec/10_state.md), its reset value (R39), and the reasons a step can
stop. -/

namespace Sys2Proof.Machine

/-- `SEQ.PH` (R32). -/
inductive Phase where
  | idle
  | attWait
  | clkLow
  | clkHigh
  | ackWait
  | interWait
deriving DecidableEq, Repr, Inhabited

/-- `SEQ`, the sequencer position (R32). -/
structure Seq where
  ph : Phase
  /-- Index of the transaction within the operation. -/
  t : Fin 3
  /-- Index of the byte within the transaction. -/
  i : Fin 9
  /-- Index of the bit within the byte. -/
  k : Fin 8
  /-- Ticks still to spend in the present phase. -/
  w : Nat
deriving DecidableEq, Repr, Inhabited

/-- The three stored bits of `STATUS` (R31). `BUSY` is a function of `SEQ.PH`. -/
structure ErrFlags where
  errCfg : Bool
  errOp : Bool
  errOvr : Bool
deriving DecidableEq, Repr, Inhabited

/-- The levels of the input ports at one rising edge of `clk` (R40, R41, R44, R45). -/
structure EdgeInputs where
  rst : Bool
  straps : Straps
  cmdValid : Bool
  /-- The `HOSTCMD` word on `CMD_OP`, `CMD_PAD`, `CMD_A`, `CMD_B` (30_encoding.md R96). -/
  hc : BitVec 20
  /-- `PS2_DAT`. -/
  dat : Bool
  /-- `PS2_ACK`, which nothing reads (R44). -/
  ack : Bool
deriving DecidableEq, Repr, Inhabited

/-- One thing the outside world does (log 2). -/
inductive Stimulus where
  /-- A rising edge of `clk` with these levels on the input ports. -/
  | edge (inp : EdgeInputs)
  /-- The host reads the query port with this word on `Q_OP`, `Q_PAD`, `Q_SEL`; no clock edge (R42). -/
  | query (qw : BitVec 8)
deriving DecidableEq, Repr

/-- The model's own fields: what lies outside the engine (log 2, 6, 7). -/
structure Env where
  /-- What the outside world does next, first first. -/
  stim : List Stimulus
  /-- The level of `Q_RESULT` at the host's latest reading. -/
  qResult : Byte
  /-- The counter that free values are applied to. -/
  freeCount : Nat
deriving DecidableEq, Repr, Inhabited

/-- The engine's state, element by element as R39 lists it, and the environment beside it. -/
structure State where
  /-- `CUR[p][0..8]` (R21). -/
  cur : PerPad Frame
  /-- `PREV[p][0..8]` (R22). -/
  prev : PerPad Frame
  /-- `MOT1[p]` (R25). -/
  mot1 : PerPad Byte
  /-- `MOT2[p]` (R25). -/
  mot2 : PerPad Byte
  /-- `CFG` (R23). -/
  cfg : Straps
  /-- `TP` (R24). -/
  tp : TimingProfile
  /-- `STATUS` bits 3:1 (R31). -/
  err : ErrFlags
  /-- `RESP[0..8]` (R26). -/
  resp : Frame
  /-- `CBUF[0..8]` (R27). -/
  cbuf : Frame
  /-- `TXSR` (R28). -/
  txsr : Byte
  /-- `RXSR` (R29). -/
  rxsr : Byte
  /-- `OPR` (R30). -/
  opr : BitVec 3
  /-- `PADR` (R30). -/
  padr : Pad
  /-- `AR` (R30). -/
  ar : Byte
  /-- `BR` (R30). -/
  br : Byte
  /-- `SEQ` (R32). -/
  seq : Seq
  /-- `L_CLK` (R33). -/
  lClk : Bool
  /-- `L_CMD` (R33). -/
  lCmd : Bool
  /-- `L_ATT1` (R33). -/
  lAtt1 : Bool
  /-- `L_ATT2` (R33). -/
  lAtt2 : Bool
  /-- `DONE` (R34). -/
  done : Bool
  /-- The model's own fields. -/
  env : Env
deriving DecidableEq, Repr

/-- Why the machine stops. Neither reason arises in a state that satisfies `Sys2Proof.Safety.SeqInv`, which
reset establishes and every step keeps. -/
inductive Fault where
  /-- Raised by the sequencer where no row of the table of 70_reset_and_hazards.md R241 applies (`SEQ.W` is 0
  in a busy phase, `OPR` is no operation that has transactions, `SEQ.T` is past the last). Safe (log 12). -/
  | noTransition
  /-- Raised by a wire command where the precondition of 41_frame_formatter.md R140 is false (`PADR` is pad 2
  and `CFG.HAS_ATT2` is 0). Safe (log 13). -/
  | noAttentionLine
deriving DecidableEq, Repr

/-- Why an instruction has no meaning. No instruction of this model is refused. -/
inductive Refusal where
  /-- Raised by an arm of `exec` without a meaning. Safe. -/
  | notModelled (mnemonic : String)
deriving DecidableEq, Repr

/-- The engine after a reset with these strap levels (R39; 70_reset_and_hazards.md R220), the environment
`env` beside it. -/
def State.resetWith (straps : Straps) (env : Env) : State where
  cur := ⟨Vector.replicate 9 0, Vector.replicate 9 0⟩
  prev := ⟨Vector.replicate 9 0, Vector.replicate 9 0⟩
  mot1 := ⟨0, 0⟩
  mot2 := ⟨0, 0⟩
  cfg := straps
  tp := Config.profile straps.platform
  err := ⟨false, false, false⟩
  resp := Vector.replicate 9 0
  cbuf := Vector.replicate 9 0
  txsr := 0
  rxsr := 0
  opr := 0
  padr := .pad1
  ar := 0
  br := 0
  seq := ⟨.idle, 0, 0, 0, 0⟩
  lClk := true
  lCmd := true
  lAtt1 := true
  lAtt2 := true
  done := false
  env := env

/-- The machine right after reset: the straps are those of the board (log 5), nothing is offered yet. -/
def State.reset : State := State.resetWith Config.straps ⟨[], 0, 0⟩

end Sys2Proof.Machine
end

