-- ==== Sys2Proof/Machine/Ops.lean ====
section
/-! DEFINITION. The shared operations over the state: lines, byte stores, raising a flag, latching an operation,
and the action groups of the sequencer (spec/00_scope.md R13 to R15, spec/70_reset_and_hazards.md R241). -/

namespace Sys2Proof.Machine

abbrev Result := Host.Outcome State Fault Refusal

/-- The second action after the first, where the first gives a next state. -/
def andThen (o : Result) (f : State → Result) : Result :=
  match o with
  | .next s => f s
  | .fault r => .fault r
  | .refused r => .refused r

/-! ### The link's output lines (R14, R33, R44) -/

/-- An output line of the link. -/
inductive Line where
  | clk
  | cmd
  | att1
  | att2
deriving DecidableEq, Repr

/-- `ATT(p)` (R14). -/
def attLine : Pad → Line
  | .pad1 => .att1
  | .pad2 => .att2

/-- `Set(L, v)`: `L_L <- v` (R33). -/
def State.setLine (s : State) (l : Line) (v : Bool) : State :=
  match l with
  | .clk => { s with lClk := v }
  | .cmd => { s with lCmd := v }
  | .att1 => { s with lAtt1 := v }
  | .att2 => { s with lAtt2 := v }

/-- The level of an output port `PS2_CLK`, `PS2_CMD`, `PS2_ATT1`, `PS2_ATT2` (R44). -/
def State.level (s : State) : Line → Bool
  | .clk => s.lClk
  | .cmd => s.lCmd
  | .att1 => s.lAtt1
  | .att2 => s.lAtt2

/-! ### The byte stores (spec/20_memory.md R60; spec/00_scope.md R13) -/

/-- An address `(bank, p, i)`. -/
inductive Addr where
  | cur (p : Pad) (i : Fin 9)
  | prev (p : Pad) (i : Fin 9)
  | resp (i : Fin 9)
  | cbuf (i : Fin 9)
deriving DecidableEq, Repr

/-- `MemRead(addr, 1)`. -/
def State.read (s : State) : Addr → Byte
  | .cur p i => (s.cur.get p)[i]
  | .prev p i => (s.prev.get p)[i]
  | .resp i => s.resp[i]
  | .cbuf i => s.cbuf[i]

/-- `MemWrite(addr, 1, v)`. -/
def State.write (s : State) (a : Addr) (v : Byte) : State :=
  match a with
  | .cur p i => { s with cur := s.cur.set p ((s.cur.get p).set i v) }
  | .prev p i => { s with prev := s.prev.set p ((s.prev.get p).set i v) }
  | .resp i => { s with resp := s.resp.set i v }
  | .cbuf i => { s with cbuf := s.cbuf.set i v }

/-! ### Status -/

/-- `STATUS.BUSY`: 1 exactly when `SEQ.PH` is not `IDLE` (R31). -/
def State.busy (s : State) : Bool := decide (s.seq.ph ≠ .idle)

/-- The three error causes (spec/60_exceptions.md R191). -/
inductive ErrCause where
  | errCfg
  | errOp
  | errOvr
deriving DecidableEq, Repr

/-- `raise E` (R15): the sticky flag is set and nothing else changes. It is no trap: nothing is saved, no mode
changes and no control is transferred (spec/60_exceptions.md R196), and there is no return from it (R197). -/
def State.raise (s : State) (e : ErrCause) : State :=
  match e with
  | .errCfg => { s with err := { s.err with errCfg := true } }
  | .errOp => { s with err := { s.err with errOp := true } }
  | .errOvr => { s with err := { s.err with errOvr := true } }

/-! ### Operations that start transactions -/

/-- The three operations that start transactions (spec/42_session_ops.md R154). -/
inductive TxnOp where
  | poll
  | setMode
  | enMotors
deriving DecidableEq, Repr

/-- The code of `CMD_OP`, and so of `OPR` (spec/30_encoding.md R96). -/
def TxnOp.code : TxnOp → BitVec 3
  | .poll => 1
  | .setMode => 2
  | .enMotors => 3

/-- The operation that `OPR` holds. -/
def TxnOp.ofCode (c : BitVec 3) : Option TxnOp :=
  match c with
  | 1#3 => some .poll
  | 2#3 => some .setMode
  | 3#3 => some .enMotors
  | _ => none

/-- `last`: the index of the operation's last transaction (R241). -/
def TxnOp.last : TxnOp → Fin 3
  | .poll => 0
  | .setMode => 2
  | .enMotors => 2

/-- `OPR <- CMD_OP; PADR <- CMD_PAD; AR <- CMD_A; BR <- CMD_B` (spec/42_session_ops.md R154). -/
def State.latch (s : State) (op : TxnOp) (p : Pad) (a b : Byte) : State :=
  { s with opr := op.code, padr := p, ar := a, br := b }

/-- `Set(L, v)` on the attention line of the pad in `PADR`. -/
def State.setAtt (s : State) (v : Bool) : State := s.setLine (attLine s.padr) v

/-- The start of a transaction that sends `cmd` to the pad in `PADR` (spec/41_frame_formatter.md R148): load
`CBUF`, `Set(ATT(p), 0)`, enter `ATT_WAIT`. TRANSACT is never entered with its precondition false (R140). -/
def beginTransaction (cmd : Frame) (s : State) : Result :=
  if s.padr = .pad2 ∧ s.cfg.hasAtt2 = false then .fault .noAttentionLine
  else .next { s.setAtt false with cbuf := cmd, seq := { s.seq with ph := .attWait, w := s.tp.tAtt } }

/-! ### The action groups of one byte (spec/70_reset_and_hazards.md R241, spec/40_serial_transceiver.md R134) -/

/-- `(RXSR >> 1) | (s << 7)` (spec/10_state.md R29). -/
def shiftIn (rx : Byte) (bit : Bool) : Byte := (rx >>> 1) ||| (if bit then 0x80#8 else 0x00#8)

/-- `START_BYTE(i)`. -/
def startByte (i : Fin 9) (s : State) : State :=
  { (s.setLine .cmd (s.cbuf[i].getLsbD 0)).setLine .clk false with
    txsr := s.cbuf[i] >>> 1
    seq := { s.seq with ph := .clkLow, i := i, k := 0, w := s.tp.tHalf } }

/-- `K <- K + 1; START_BIT`. -/
def startBit (s : State) : State :=
  { (s.setLine .cmd (s.txsr.getLsbD 0)).setLine .clk false with
    txsr := s.txsr >>> 1
    seq := { s.seq with ph := .clkLow, k := s.seq.k + 1, w := s.tp.tHalf } }

/-- The end of `CLK_LOW`: the rising edge of the link clock, at which the data line is sampled. -/
def captureBit (dat : Bool) (s : State) : State :=
  { s.setLine .clk true with
    rxsr := shiftIn s.rxsr dat
    seq := { s.seq with ph := .clkHigh, w := s.tp.tHalf } }

/-- The end of `CLK_HIGH` of bit 7: `RESP[I] <- RXSR`, enter `ACK_WAIT`. -/
def endByte (s : State) : State :=
  { s.write (.resp s.seq.i) s.rxsr with seq := { s.seq with ph := .ackWait, w := s.tp.tAck } }

/-- The end of `ACK_WAIT` of byte 8: `Set(ATT(p), 1)`, enter `INTER_WAIT`. -/
def releaseAttention (s : State) : State :=
  { s.setAtt true with seq := { s.seq with ph := .interWait, w := s.tp.tInter } }

/-- The change mask (spec/42_session_ops.md R150): bytes 3 and 4 of `prev` become their exclusive OR with
those of the new frame. -/
def changeMask (prev new : Frame) : Frame :=
  (prev.set 3 (prev[3] ^^^ new[3])).set 4 (prev[4] ^^^ new[4])

/-- What POLL does at its acceptance: `PREV[p] <- CUR[p]` (R150). -/
def savePrevious (p : Pad) (s : State) : State :=
  { s with prev := s.prev.set p (s.cur.get p) }

/-- What POLL does at its completion: `CUR[p] <- RESP`, and the two exclusive ORs (R150, R241). -/
def storeResponse (p : Pad) (s : State) : State :=
  { s with cur := s.cur.set p s.resp, prev := s.prev.set p (changeMask (s.prev.get p) s.resp) }

/-- The end of an operation's last transaction (R241): POLL stores its response, the sequencer goes idle and
`DONE` is 1 for the coming tick (spec/10_state.md R34). -/
def endOperation (op : TxnOp) (s : State) : State :=
  let s' := match op with
    | .poll => storeResponse s.padr s
    | .setMode => s
    | .enMotors => s
  { s' with seq := { s'.seq with ph := .idle }, done := true }

/-! ### The query port -/

/-- The host reads `v` on `Q_RESULT`; the engine does not change (spec/10_state.md R42). -/
def State.report (s : State) (v : Byte) : State :=
  { s with env := { s.env with qResult := v } }

/-- The host reads an unspecified value on `Q_RESULT` (spec/20_memory.md R68, spec/30_encoding.md R103): a
free value, and the engine does not change (log 7). -/
def State.reportFree (s : State) : State :=
  { s with env := { s.env with
      qResult := Config.freeQResult s.env.freeCount, freeCount := s.env.freeCount + 1 } }

/-- A query whose answer is `v`: unspecified while `BUSY` is 1 (spec/20_memory.md R68). -/
def answer (v : Byte) (s : State) : Result :=
  if s.busy then .next s.reportFree else .next (s.report v)

end Sys2Proof.Machine
end

