-- ==== Sys2Proof/Machine/Operands.lean ====
section
/-! DEFINITION. Operand forms: the selectors of the queries (spec/43_button_decoder.md R176, R173) and the bytes of
the five wire commands (spec/41_frame_formatter.md R142 to R146, spec/30_encoding.md R94, R95). -/

namespace Sys2Proof.Machine

/-- The frame byte of button `n`: `3 + n[3]` (R176). -/
def buttonIndex (n : BitVec 4) : Fin 9 := if n.getLsbD 3 then 4 else 3

/-- The mask of button `n`: `1 << n[2:0]` (R176). -/
def buttonMask (n : BitVec 4) : Byte := 1#8 <<< (n.extractLsb' 0 3)

/-- The axis index `Q_SEL[1:0]` (R173). -/
def axisIndex (sel : BitVec 4) : BitVec 2 := sel.extractLsb' 0 2

/-- The frame byte of axis `a`: `5 + a` (R173). -/
def axisByte (a : BitVec 2) : Fin 9 := ⟨5 + a.toNat, by have := a.isLt; omega⟩

/-! Named operand values (spec/30_encoding.md R101, R105). No rule depends on a name. -/

abbrev modeDigital : Byte := 0x00

abbrev modeAnalog : Byte := 0x01

abbrev lockOff : Byte := 0x02

abbrev lockOn : Byte := 0x03

abbrev motor1LevelA : Byte := 0x00

abbrev motor1LevelB : Byte := 0xFF

abbrev nibbleAnalog : BitVec 4 := 0x7

abbrev nibbleDigital : BitVec 4 := 0x4

/-- The axes (R173). -/
inductive Axis where
  | rx
  | ry
  | lx
  | ly
deriving DecidableEq, Repr

/-- The axis index, as a selector. -/
def Axis.number : Axis → BitVec 4
  | .rx => 0
  | .ry => 1
  | .lx => 2
  | .ly => 3

/-- The button catalogue (R176). -/
inductive Button where
  | select
  | l3
  | r3
  | start
  | up
  | right
  | down
  | left
  | l2
  | r2
  | l1
  | r1
  | triangle
  | circle
  | cross
  | square
deriving DecidableEq, Repr

/-- The button number `n`, as a selector. -/
def Button.number : Button → BitVec 4
  | .select => 0
  | .l3 => 1
  | .r3 => 2
  | .start => 3
  | .up => 4
  | .right => 5
  | .down => 6
  | .left => 7
  | .l2 => 8
  | .r2 => 9
  | .l1 => 10
  | .r1 => 11
  | .triangle => 12
  | .circle => 13
  | .cross => 14
  | .square => 15

/-- A wire command of at most nine bytes, completed with `0x00` bytes at the end (R94). -/
def padFrame (bytes : List Byte) : Frame := Vector.ofFn fun i => bytes.getD i.val 0x00

/-! The bytes the source gives (R142 to R146), before padding. -/

def pollCmdBytes (m1 m2 : Byte) : Frame := padFrame [0x01, 0x42, 0x00, m1, m2]

def enterCfgBytes : Frame := padFrame [0x01, 0x43, 0x00, 0x01]

def exitCfgBytes : Frame := padFrame [0x01, 0x43, 0x00, 0x00, 0x5A, 0x5A, 0x5A, 0x5A, 0x5A]

def setModeCmdBytes (mode lock : Byte) : Frame :=
  padFrame [0x01, 0x44, 0x00, mode, lock, 0x00, 0x00, 0x00, 0x00]

def enMotorsCmdBytes (e1 e2 : Byte) : Frame :=
  padFrame [0x01, 0x4D, 0x00, e1, e2, 0xFF, 0xFF, 0xFF, 0xFF]

end Sys2Proof.Machine
end

