-- ==== Sys2Proof/Machine/Flags.lean ====
section
/-! DEFINITION. The status port (spec/10_state.md R31, R43) and the predicates of the button decoder
(spec/43_button_decoder.md R177, R174, R175). No operation sets a condition code (R38). -/

namespace Sys2Proof.Machine

/-- `STATUS[3:0]` = {`ERR_OVR`, `ERR_OP`, `ERR_CFG`, `BUSY`} (R43). -/
def State.statusPort (s : State) : BitVec 4 :=
  BitVec.ofBool s.err.errOvr ++ BitVec.ofBool s.err.errOp ++ BitVec.ofBool s.err.errCfg ++ BitVec.ofBool s.busy

/-- `zext_8` of a truth value (spec/00_scope.md R11). -/
def boolByte (v : Bool) : Byte := if v then 0x01 else 0x00

/-- `is_down(p, idx, mask)` (R177). -/
def isDownAt (s : State) (p : Pad) (idx : Fin 9) (mask : Byte) : Bool :=
  (s.cur.get p)[idx] &&& mask == 0

/-- `pressed(p, idx, mask)` (R177). -/
def pressedAt (s : State) (p : Pad) (idx : Fin 9) (mask : Byte) : Bool :=
  (s.prev.get p)[idx] &&& mask != 0 && (s.cur.get p)[idx] &&& mask == 0

/-- `released(p, idx, mask)` (R177). -/
def releasedAt (s : State) (p : Pad) (idx : Fin 9) (mask : Byte) : Bool :=
  (s.prev.get p)[idx] &&& mask != 0 && (s.cur.get p)[idx] &&& mask != 0

/-- `CUR[p][1][7:4]`, the mode nibble (spec/20_memory.md R64). -/
def modeNibble (s : State) (p : Pad) : BitVec 4 := (s.cur.get p)[1].extractLsb' 4 4

/-- The mode nibble says analog, `NIBBLE_ANALOG` = 7 (R174; spec/30_encoding.md R101). -/
def modeIsAnalog (s : State) (p : Pad) : Bool := modeNibble s p == nibbleAnalog

/-- The mode nibble says digital, `NIBBLE_DIGITAL` = 4 (R175; spec/30_encoding.md R101). -/
def modeIsDigital (s : State) (p : Pad) : Bool := modeNibble s p == nibbleDigital

end Sys2Proof.Machine
end

