-- ==== Sys2Proof/Machine/Queries.lean ====
section
/-! DEFINITION. The six queries (spec/43_button_decoder.md R170 to R175): combinational, no engine state changed. -/

namespace Sys2Proof.Machine

/-- ISDOWN (R170). -/
def execIsDown (p : Pad) (n : BitVec 4) (s : State) : Result :=
  answer (boolByte (isDownAt s p (buttonIndex n) (buttonMask n))) s

/-- PRESSED (R171). -/
def execPressed (p : Pad) (n : BitVec 4) (s : State) : Result :=
  answer (boolByte (pressedAt s p (buttonIndex n) (buttonMask n))) s

/-- RELEASED (R172). -/
def execReleased (p : Pad) (n : BitVec 4) (s : State) : Result :=
  answer (boolByte (releasedAt s p (buttonIndex n) (buttonMask n))) s

/-- AXIS (R173). A selector whose bits 3:2 are not 0 gives an unspecified result. -/
def execAxis (p : Pad) (sel : BitVec 4) (s : State) : Result :=
  if sel.extractLsb' 2 2 = 0#2 then answer (s.cur.get p)[axisByte (axisIndex sel)] s else .next s.reportFree

/-- ISANALOG (R174). The selector is ignored. -/
def execIsAnalog (p : Pad) (_sel : BitVec 4) (s : State) : Result :=
  answer (boolByte (modeIsAnalog s p)) s

/-- ISDIGITAL (R175). The selector is ignored. -/
def execIsDigital (p : Pad) (_sel : BitVec 4) (s : State) : Result :=
  answer (boolByte (modeIsDigital s p)) s

end Sys2Proof.Machine
end

