-- ==== Sys2Proof/Machine/WireCommands.lean ====
section
/-! DEFINITION. The five wire commands (spec/41_frame_formatter.md R142 to R146). The sequencer issues them: the
meaning of one is the start of the transaction that sends it (R148; log 15). -/

namespace Sys2Proof.Machine

/-- POLL_CMD (R142). -/
def execPollCmd (m1 m2 : Byte) (s : State) : Result := beginTransaction (pollCmdBytes m1 m2) s

/-- ENTER_CFG (R143). -/
def execEnterCfg (s : State) : Result := beginTransaction enterCfgBytes s

/-- EXIT_CFG (R144). -/
def execExitCfg (s : State) : Result := beginTransaction exitCfgBytes s

/-- SET_MODE_CMD (R145). -/
def execSetModeCmd (mode lock : Byte) (s : State) : Result := beginTransaction (setModeCmdBytes mode lock) s

/-- EN_MOTORS_CMD (R146). -/
def execEnMotorsCmd (e1 e2 : Byte) (s : State) : Result := beginTransaction (enMotorsCmdBytes e1 e2) s

/-- `START_TXN(t)` (spec/70_reset_and_hazards.md R241): the wire command of transaction `t` of the operation
in `OPR`, sent to the pad in `PADR`. -/
def startTxn (t : Fin 3) (s : State) : Result :=
  let s' := { s with seq := { s.seq with t := t } }
  match TxnOp.ofCode s.opr, t with
  | some .poll, 0 => execPollCmd (s.mot1.get s.padr) (s.mot2.get s.padr) s'
  | some .setMode, 0 => execEnterCfg s'
  | some .setMode, 1 => execSetModeCmd s.ar s.br s'
  | some .setMode, 2 => execExitCfg s'
  | some .enMotors, 0 => execEnterCfg s'
  | some .enMotors, 1 => execEnMotorsCmd s.ar s.br s'
  | some .enMotors, 2 => execExitCfg s'
  | some .poll, _ => .fault .noTransition
  | none, _ => .fault .noTransition

end Sys2Proof.Machine
end

