-- ==== Sys2Proof/Machine/Session.lean ====
section
/-! DEFINITION. The four session operations (spec/42_session_ops.md R150 to R154): what a clock edge that offers
one does. The edges after it are the sequencer's (Machine/Sequencer.lean). -/

namespace Sys2Proof.Machine

/-- The acceptance step of an operation that starts transactions (R154): the first test that holds decides,
and `start` begins the operation in the state with its operands latched. -/
def accept (op : TxnOp) (p : Pad) (a b : Byte) (start : State → Result) (s : State) : Result :=
  if s.busy then .next (s.raise .errOvr)
  else if p = .pad2 ∧ s.cfg.hasAtt2 = false then .next (s.raise .errCfg)
  else start (s.latch op p a b)

/-- POLL (R150). The engine reads neither operand; it latches both (R154; log 11). -/
def execPoll (p : Pad) (a b : Byte) (s : State) : Result :=
  accept .poll p a b (fun s' => startTxn 0 (savePrevious p s')) s

/-- SETMODE (R151). -/
def execSetMode (p : Pad) (mode lock : Byte) (s : State) : Result :=
  accept .setMode p mode lock (startTxn 0) s

/-- ENMOTORS (R152). -/
def execEnMotors (p : Pad) (e1 e2 : Byte) (s : State) : Result :=
  accept .enMotors p e1 e2 (startTxn 0) s

/-- SETMOTORLEVELS (R153): no transaction, and no check of the attention line. -/
def execSetMotorLevels (p : Pad) (m1 m2 : Byte) (s : State) : Result :=
  if s.busy then .next (s.raise .errOvr)
  else .next { s with mot1 := s.mot1.set p m1, mot2 := s.mot2.set p m2 }

/-- An offered word with a reserved `CMD_OP` (R154; spec/60_exceptions.md R193, R195). -/
def acceptReserved (s : State) : Result :=
  if s.busy then .next (s.raise .errOvr) else .next (s.raise .errOp)

end Sys2Proof.Machine
end

