-- ==== Sys2Proof/Machine/Dispatch.lean ====
section
/-! DEFINITION. The meaning of every instruction, by one match. -/

namespace Sys2Proof.Machine

def exec (i : Instr) (s : State) : Host.Outcome State Fault Refusal :=
  match i with
  | .poll pad a b => Sys2Proof.Machine.execPoll pad a b s
  | .setMode pad mode lock => Sys2Proof.Machine.execSetMode pad mode lock s
  | .enMotors pad e1 e2 => Sys2Proof.Machine.execEnMotors pad e1 e2 s
  | .setMotorLevels pad m1 m2 => Sys2Proof.Machine.execSetMotorLevels pad m1 m2 s
  | .isDown pad n => Sys2Proof.Machine.execIsDown pad n s
  | .pressed pad n => Sys2Proof.Machine.execPressed pad n s
  | .released pad n => Sys2Proof.Machine.execReleased pad n s
  | .axis pad sel => Sys2Proof.Machine.execAxis pad sel s
  | .isAnalog pad sel => Sys2Proof.Machine.execIsAnalog pad sel s
  | .isDigital pad sel => Sys2Proof.Machine.execIsDigital pad sel s
  | .pollCmd m1 m2 => Sys2Proof.Machine.execPollCmd m1 m2 s
  | .enterCfg => Sys2Proof.Machine.execEnterCfg s
  | .exitCfg => Sys2Proof.Machine.execExitCfg s
  | .setModeCmd mode lock => Sys2Proof.Machine.execSetModeCmd mode lock s
  | .enMotorsCmd e1 e2 => Sys2Proof.Machine.execEnMotorsCmd e1 e2 s

end Sys2Proof.Machine
end

