-- ==== Sys2Proof/Machine/Sequencer.lean ====
section
/-! DEFINITION. The sequencer on one rising edge of `clk` with `rst = 0`: the rows of the tick-level table of
spec/70_reset_and_hazards.md R241 for every phase but `IDLE`, whose rows are the acceptance step
(Machine/Session.lean). -/

namespace Sys2Proof.Machine

/-- The end of `INTER_WAIT`: the next transaction of the operation, or the operation's end. -/
def endTransaction (s : State) : Result :=
  match TxnOp.ofCode s.opr with
  | none => .fault .noTransition
  | some op =>
    if s.seq.t < op.last then startTxn (s.seq.t + 1) s
    else if s.seq.t = op.last then .next (endOperation op s)
    else .fault .noTransition

/-- The row of the present phase with condition `W = 1`. -/
def endPhase (dat : Bool) (s : State) : Result :=
  match s.seq.ph with
  | .idle => .next s
  | .attWait => .next (startByte 0 s)
  | .clkLow => .next (captureBit dat s)
  | .clkHigh => if s.seq.k < 7 then .next (startBit s) else .next (endByte s)
  | .ackWait => if s.seq.i < 8 then .next (startByte (s.seq.i + 1) s) else .next (releaseAttention s)
  | .interWait => endTransaction s

/-- One edge of the sequencer. In `IDLE` nothing happens; in every other phase the wait counter runs down and
the phase ends where it is 1. No row applies where it is 0 (log 12). -/
def advance (dat : Bool) (s : State) : Result :=
  if s.seq.ph = .idle then .next s
  else if 1 < s.seq.w then .next { s with seq := { s.seq with w := s.seq.w - 1 } }
  else if s.seq.w = 1 then endPhase dat s
  else .fault .noTransition

end Sys2Proof.Machine
end

