-- ==== Sys2Proof/Machine/ClockEdge.lean ====
section
/-! DEFINITION. One rising edge of `clk`, one reading of the query port, and how a word is put where the next step
runs it (spec/10_state.md R40 to R42, spec/70_reset_and_hazards.md R220, R241). -/

namespace Sys2Proof.Machine

/-- The word `hc` is on the host command port with `CMD_VALID = 1` (spec/10_state.md R41,
spec/42_session_ops.md R154). -/
def offer (hc : BitVec 20) (s : State) : Result :=
  match decodeHostCmd hc with
  | .ok i => exec i s
  | .error _ => acceptReserved s

/-- One rising edge of `clk`. With `rst = 1` every element takes its reset value and nothing else happens
(R40, R220, R222). With `rst = 0` an offered operation is accepted or rejected, and where the engine was busy
before the edge the sequencer advances (R230, R241; log 20). `DONE` is 0 unless this edge ends an operation
(spec/10_state.md R34). -/
def clockEdge (inp : EdgeInputs) (s : State) : Result :=
  if inp.rst then .next (State.resetWith inp.straps s.env)
  else
    andThen (if inp.cmdValid then offer inp.hc { s with done := false } else .next { s with done := false })
      fun s' => if s.busy then advance inp.dat s' else .next s'

/-- The host reads the query port (R42). A reserved word gives an unspecified result and changes nothing
(spec/30_encoding.md R103; log 8). -/
def readQuery (qw : BitVec 8) (s : State) : Result :=
  match decodeQuery qw with
  | .ok i => exec i s
  | .error _ => .next s.reportFree

/-- The inputs of an edge that no stimulus describes: no reset, nothing offered, and the data line at a free
level (log 2, 9). -/
def quietInputs (s : State) : EdgeInputs where
  rst := false
  straps := s.cfg
  cmdValid := false
  hc := 0
  dat := Config.freeDat s.env.freeCount
  ack := false

/-- The state after the first listed stimulus is taken, or after a free value is taken where none is listed. -/
def State.takeStimulus (s : State) : State :=
  match s.env.stim with
  | [] => { s with env := { s.env with freeCount := s.env.freeCount + 1 } }
  | _ :: rest => { s with env := { s.env with stim := rest } }

/-! ### Presenting a word (log 3) -/

/-- `st` is what the outside world does next, before everything listed. -/
def State.pushStimulus (s : State) (st : Stimulus) : State :=
  { s with env := { s.env with stim := st :: s.env.stim } }

/-- The next edge offers the word `hc` on the host command port. -/
def State.pushOffer (s : State) (hc : BitVec 20) : State :=
  s.pushStimulus (.edge { quietInputs s with cmdValid := true, hc := hc })

/-- The sequencer stands at the end of transaction `t` of an operation for pad 1, whose next transaction
starts on the next edge, which offers nothing. -/
def State.pushTransaction (s : State) (op : TxnOp) (a b : Byte) (t : Fin 3) : State :=
  { s.latch op .pad1 a b with seq := { s.seq with ph := .interWait, t := t, w := 1 } }.pushStimulus
    (.edge (quietInputs s))

/-- `s` with the word where the next step runs it: a host command word and a query word on their ports; a wire
command by the acceptance (POLL_CMD, ENTER_CFG) or the end of the transaction (the others) that sends it. -/
def State.presentWord (s : State) (c : CodeWord) : State :=
  match c with
  | .hostCmd hc => s.pushOffer hc
  | .query qw => s.pushStimulus (.query qw)
  | .wireCmd f =>
    match decodeWireCmd f with
    | .ok (.pollCmd m1 m2) =>
      { s with
        mot1 := s.mot1.set .pad1 m1
        mot2 := s.mot2.set .pad1 m2
        seq := { s.seq with ph := .idle } }.pushOffer (hostWord 1#3 .pad1 0 0)
    | .ok .enterCfg => { s with seq := { s.seq with ph := .idle } }.pushOffer (hostWord 2#3 .pad1 0 0)
    | .ok .exitCfg => s.pushTransaction .setMode 0 0 1
    | .ok (.setModeCmd mode lock) => s.pushTransaction .setMode mode lock 0
    | .ok (.enMotorsCmd e1 e2) => s.pushTransaction .enMotors e1 e2 0
    | .ok _ => s
    | .error _ => s

end Sys2Proof.Machine
end

