-- ==== Sys2Proof/Machine/Step.lean ====
section
/-! DEFINITION. One step of the machine: the next thing the outside world does (log 2). -/

namespace Sys2Proof.Machine

/-- One step: the first listed stimulus, a clock edge or a reading of the query port; where none is listed, a
clock edge that offers nothing. -/
def step (s : State) : Host.Outcome State Fault Refusal :=
  match s.env.stim with
  | [] => clockEdge (quietInputs s) s.takeStimulus
  | .edge inp :: _ => clockEdge inp s.takeStimulus
  | .query qw :: _ => readQuery qw s.takeStimulus

/-- `s` with the word whose bits, numbered as spec/opcode_table.json numbers them, are `w` where the next step
runs it (log 3). A number that is no word changes nothing. -/
def State.withFetchWord (s : State) (nbits w : Nat) : State :=
  match codeWordOfNumber nbits w with
  | some c => s.presentWord c
  | none => s

end Sys2Proof.Machine
end

