-- ==== Sys2Proof/Machine/LineEvents.lean ====
section
/-! DEFINITION. The line-event level (spec/00_scope.md R6, R14): what each operation does to the link, as the finite
sequence of its events in order, and to the state. The two micro-operations XFER_BYTE
(spec/40_serial_transceiver.md R130) and TRANSACT (spec/41_frame_formatter.md R140), and the session operations as
their pseudocode (spec/42_session_ops.md R150 to R153). The device's bits are given as the bytes they make: the
`k`-th sample of byte `i` is bit `k` of byte `i` of the answer (spec/30_encoding.md R105). -/

namespace Sys2Proof.Machine

/-- An event on the link (R14). -/
inductive LineEvent where
  | set (l : Line) (v : Bool)
  | sample (v : Bool)
  | wait (d : Nat)
deriving DecidableEq, Repr

/-- A trace: events in the order they occur (R14). -/
abbrev Trace := List LineEvent

/-- The bits of a byte in wire order: bit 0 first (spec/20_memory.md R63). -/
def byteBits (b : Byte) : List Bool := (List.finRange 8).map fun k => b.getLsbD k.val

/-- One iteration of XFER_BYTE's loop (R130, order R71), the device answering `dat`. -/
def xferBit (dat : Bool) (s : State) : State × Trace :=
  let bit := s.txsr.getLsbD 0
  let s1 := { s.setLine .cmd bit with txsr := s.txsr >>> 1 }
  let s2 := (s1.setLine .clk false).setLine .clk true
  ({ s2 with rxsr := shiftIn s2.rxsr dat },
    [.set .cmd bit, .set .clk false, .wait s.tp.tHalf, .set .clk true, .sample dat, .wait s.tp.tHalf])

/-- Iterations of XFER_BYTE's loop, one for each bit the device answers. -/
def xferBits : List Bool → State → State × Trace
  | [], s => (s, [])
  | dat :: rest, s =>
    let x := xferBit dat s
    let y := xferBits rest x.1
    (y.1, x.2 ++ y.2)

/-- XFER_BYTE (R130): send `b`, receive; the received byte is `RXSR` of the state after. -/
def xferByte (b ans : Byte) (s : State) : State × Trace :=
  xferBits (byteBits ans) { s with txsr := b }

/-- The loop of TRANSACT over byte positions (R140). -/
def transactBytes (ans : Frame) : List (Fin 9) → State → State × Trace
  | [], s => (s, [])
  | i :: rest, s =>
    let x := xferByte s.cbuf[i] ans[i] s
    let y := transactBytes ans rest (x.1.write (.resp i) x.1.rxsr)
    (y.1, x.2 ++ .wait s.tp.tAck :: y.2)

/-- TRANSACT (R140): the wire command in `CBUF` to pad `p`, the response to `RESP`. -/
def transact (p : Pad) (ans : Frame) (s : State) : State × Trace :=
  let y := transactBytes ans (List.finRange 9) (s.setLine (attLine p) false)
  (y.1.setLine (attLine p) true,
    [.set (attLine p) false, .wait s.tp.tAtt] ++ y.2 ++ [.set (attLine p) true, .wait s.tp.tInter])

/-- Load `CBUF` with `cmd` and call TRANSACT. -/
def sendCommand (cmd : Frame) (p : Pad) (ans : Frame) (s : State) : State × Trace :=
  transact p ans { s with cbuf := cmd }

/-- POLL(p) (R150), accepted with operands `a`, `b`. -/
def pollEvents (p : Pad) (a b : Byte) (ans : Frame) (s : State) : State × Trace :=
  let s1 := savePrevious p (s.latch .poll p a b)
  let x := sendCommand (pollCmdBytes (s1.mot1.get p) (s1.mot2.get p)) p ans s1
  (storeResponse p x.1, x.2)

/-- The configuration bracket (R151, R152, R157): enter, the middle command, exit. -/
def bracketEvents (middle : Frame) (p : Pad) (ans0 ans1 ans2 : Frame) (s : State) : State × Trace :=
  let x := sendCommand enterCfgBytes p ans0 s
  let y := sendCommand middle p ans1 x.1
  let z := sendCommand exitCfgBytes p ans2 y.1
  (z.1, x.2 ++ y.2 ++ z.2)

/-- SETMODE(p, mode, lock) (R151). -/
def setModeEvents (p : Pad) (mode lock : Byte) (ans0 ans1 ans2 : Frame) (s : State) : State × Trace :=
  bracketEvents (setModeCmdBytes mode lock) p ans0 ans1 ans2 (s.latch .setMode p mode lock)

/-- ENMOTORS(p, e1, e2) (R152). -/
def enMotorsEvents (p : Pad) (e1 e2 : Byte) (ans0 ans1 ans2 : Frame) (s : State) : State × Trace :=
  bracketEvents (enMotorsCmdBytes e1 e2) p ans0 ans1 ans2 (s.latch .enMotors p e1 e2)

/-! ### Readings of a trace -/

/-- How long a trace lasts, in ticks: the sum of its waits (R133). -/
def Trace.duration (t : Trace) : Nat :=
  (t.map fun e => match e with
    | .wait d => d
    | .set _ _ => 0
    | .sample _ => 0).sum

/-- The levels set on the `CMD` line, in time order. -/
def Trace.cmdLevels (t : Trace) : List Bool :=
  t.filterMap fun e => match e with
    | .set .cmd v => some v
    | .set .clk _ => none
    | .set .att1 _ => none
    | .set .att2 _ => none
    | .sample _ => none
    | .wait _ => none

/-- The bits sampled, in time order. -/
def Trace.samples (t : Trace) : List Bool :=
  t.filterMap fun e => match e with
    | .sample v => some v
    | .set _ _ => none
    | .wait _ => none

/-- The number of events on one output line. -/
def Trace.countSets (t : Trace) (l : Line) : Nat :=
  (t.filter fun e => match e with
    | .set l' _ => decide (l' = l)
    | .sample _ => false
    | .wait _ => false).length

/-- The number of waits. -/
def Trace.countWaits (t : Trace) : Nat :=
  (t.filter fun e => match e with
    | .wait _ => true
    | .set _ _ => false
    | .sample _ => false).length

/-- A trace with every wait of `d` ticks written as `d` waits of one tick, so that two waits that follow each
other read as one of their sum (spec/70_reset_and_hazards.md R242). -/
def Trace.unitWaits (t : Trace) : Trace :=
  t.flatMap fun e => match e with
    | .wait d => List.replicate d (.wait 1)
    | .set l v => [.set l v]
    | .sample v => [.sample v]

/-- `D_TXN`, the duration of one transaction (spec/41_frame_formatter.md R147). -/
def txnTicks (tp : TimingProfile) : Nat :=
  tp.tAtt + 9 * (16 * tp.tHalf + tp.tAck) + tp.tInter

end Sys2Proof.Machine
end

