-- ==== Sys2Proof/Machine/OpLevel.lean ====
section
/-! DEFINITION. The operation level as functions (spec/42_session_ops.md R160): each operation as one transition of
the architectural state. -/

namespace Sys2Proof.Machine

/-- `S = (CUR, PREV, MOT1, MOT2)` (R160; spec/10_state.md R20). -/
structure Arch where
  cur : PerPad Frame
  prev : PerPad Frame
  mot1 : PerPad Byte
  mot2 : PerPad Byte
deriving DecidableEq, Repr

/-- The architectural part of the engine's state. -/
def State.arch (s : State) : Arch := ⟨s.cur, s.prev, s.mot1, s.mot2⟩

/-- What an operation gives: the new architectural state, the wire commands it emits, the error it raises. -/
structure OpResult where
  arch : Arch
  emitted : List Frame
  err : Option ErrCause
deriving DecidableEq, Repr

/-- The check common to the operations that need a transaction (R160, last paragraph). -/
def needsAttention (has2 : Bool) (p : Pad) (S : Arch) (r : OpResult) : OpResult :=
  if p = .pad2 ∧ has2 = false then ⟨S, [], some .errCfg⟩ else r

/-- `poll(S, p, r)` (R160). -/
def opPoll (has2 : Bool) (S : Arch) (p : Pad) (r : Frame) : OpResult :=
  needsAttention has2 p S
    ⟨{ S with cur := S.cur.set p r, prev := S.prev.set p (changeMask (S.cur.get p) r) },
      [#v[0x01, 0x42, 0x00, S.mot1.get p, S.mot2.get p, 0x00, 0x00, 0x00, 0x00]], none⟩

/-- `setmode(S, p, a, b)` (R160). -/
def opSetMode (has2 : Bool) (S : Arch) (p : Pad) (a b : Byte) : OpResult :=
  needsAttention has2 p S
    ⟨S, [enterCfgBytes, #v[0x01, 0x44, 0x00, a, b, 0x00, 0x00, 0x00, 0x00], exitCfgBytes], none⟩

/-- `enmotors(S, p, a, b)` (R160). -/
def opEnMotors (has2 : Bool) (S : Arch) (p : Pad) (a b : Byte) : OpResult :=
  needsAttention has2 p S
    ⟨S, [enterCfgBytes, #v[0x01, 0x4D, 0x00, a, b, 0xFF, 0xFF, 0xFF, 0xFF], exitCfgBytes], none⟩

/-- `setmotorlevels(S, p, a, b)` (R160). -/
def opSetMotorLevels (S : Arch) (p : Pad) (a b : Byte) : OpResult :=
  ⟨{ S with mot1 := S.mot1.set p a, mot2 := S.mot2.set p b }, [], none⟩

end Sys2Proof.Machine
end

