-- ==== Sys2Proof/Machine/TickTrace.lean ====
section
/-! DEFINITION. The events on the link read off a run of the tick-level machine (spec/70_reset_and_hazards.md
R242). -/

namespace Sys2Proof.Machine

/-- The events that one edge bears, in the order its action lists them: which they are follows from the phase
before and the phase after, since every action that sets a line or samples changes the phase (R241; log 24). An edge
with `rst = 1` bears none, although line levels may rise on it (R222): R241 gives actions, and R242 events, for edges
with `rst = 0` alone, so this is the model's choice (DESIGN CHOICE, log 26). -/
def edgeEvents (dat : Bool) (s s' : State) : Trace :=
  match s.seq.ph, s'.seq.ph with
  | .idle, .attWait => [.set (attLine s'.padr) false]
  | .interWait, .attWait => [.set (attLine s'.padr) false]
  | .attWait, .clkLow => [.set .cmd s'.lCmd, .set .clk s'.lClk]
  | .clkHigh, .clkLow => [.set .cmd s'.lCmd, .set .clk s'.lClk]
  | .ackWait, .clkLow => [.set .cmd s'.lCmd, .set .clk s'.lClk]
  | .clkLow, .clkHigh => [.set .clk s'.lClk, .sample dat]
  | .ackWait, .interWait => [.set (attLine s'.padr) true]
  | _, _ => []

/-- The trace of `n` edges: one tick, then the events of the edge that ends it. `inp` gives the inputs of the
edges, the first first; the run ends early where the machine stops. -/
def edgeTrace : List EdgeInputs → State → Trace
  | [], _ => []
  | inp :: rest, s =>
    match clockEdge inp s with
    | .next s' => .wait 1 :: edgeEvents inp.dat s s' ++ edgeTrace rest s'
    | .fault _ => []
    | .refused _ => []

/-- The state after these edges. -/
def runEdges : List EdgeInputs → State → Result
  | [], s => .next s
  | inp :: rest, s => andThen (clockEdge inp s) (runEdges rest)

end Sys2Proof.Machine
end

