-- ==== Sys2Proof/Safety.lean ====
section
/-! DEFINITION. What counts as a good state: the terms in which claims about runs are made. -/

namespace Sys2Proof.Safety

open Sys2Proof.Machine

/-- No error flag is set: no host mistake so far (spec/60_exceptions.md R199). -/
abbrev NoError (s : State) : Prop :=
  s.err.errCfg = false ∧ s.err.errOp = false ∧ s.err.errOvr = false

/-- The invariants of spec/10_state.md R47: at idle the link clock and both attention lines are high; at most one
attention line is low, and only in the four phases of a transaction; the link clock is low only in `CLK_LOW`. -/
abbrev LinkInv (s : State) : Prop :=
  (s.seq.ph = .idle → s.lClk = true ∧ s.lAtt1 = true ∧ s.lAtt2 = true) ∧
  (s.lAtt1 = true ∨ s.lAtt2 = true) ∧
  (s.lAtt1 = false ∨ s.lAtt2 = false →
    s.seq.ph = .attWait ∨ s.seq.ph = .clkLow ∨ s.seq.ph = .clkHigh ∨ s.seq.ph = .ackWait) ∧
  (s.lClk = false → s.seq.ph = .clkLow)

/-- The largest duration of a timing profile (spec/10_state.md R32 bounds `SEQ.W` by it). -/
def maxDuration (tp : TimingProfile) : Nat := max (max tp.tAtt tp.tInter) (max tp.tHalf tp.tAck)

/-- The sequencer's position is one that the table of spec/70_reset_and_hazards.md R241 has a row for: every
duration is at least 1; in a busy phase the wait counter is between 1 and the largest duration, `OPR` is an
operation that has transactions, `SEQ.T` is at most its last, and the pad in `PADR` has its attention line. -/
abbrev SeqInv (s : State) : Prop :=
  s.tp.positive ∧
  (s.seq.ph ≠ .idle →
    1 ≤ s.seq.w ∧ s.seq.w ≤ maxDuration s.tp ∧
    (∃ op, TxnOp.ofCode s.opr = some op ∧ s.seq.t ≤ op.last) ∧
    (s.padr = .pad2 → s.cfg.hasAtt2 = true))

/-- The lines follow the phase: the attention line of the pad in `PADR` is low exactly in the four phases of a
transaction and the other one is high; the link clock is low exactly in `CLK_LOW`. -/
abbrev LinesFollowPhase (s : State) : Prop :=
  s.level (attLine s.padr) =
    decide (s.seq.ph = .idle ∨ s.seq.ph = .interWait) ∧
  (s.padr = .pad1 → s.lAtt2 = true) ∧
  (s.padr = .pad2 → s.lAtt1 = true) ∧
  s.lClk = decide (s.seq.ph ≠ .clkLow)

/-- Without the pad 2 attention line pad 2 is never touched: its line stays high and its buffers keep their
reset zeros (spec/10_state.md R44, spec/43_button_decoder.md R179). -/
abbrev AbsentPad2Untouched (s : State) : Prop :=
  s.cfg.hasAtt2 = false →
    s.lAtt2 = true ∧ s.cur.pad2 = Vector.replicate 9 0 ∧ s.prev.pad2 = Vector.replicate 9 0

/-- Two states agree on everything that decides what the sequencer does next: all but the data (buffers, motor
levels, operands, shift registers, the level of the command line) and the model's own fields. -/
abbrev SameControl (s t : State) : Prop :=
  s.cfg = t.cfg ∧ s.tp = t.tp ∧ s.err = t.err ∧ s.opr = t.opr ∧ s.padr = t.padr ∧ s.seq = t.seq ∧
  s.lClk = t.lClk ∧ s.lAtt1 = t.lAtt1 ∧ s.lAtt2 = t.lAtt2 ∧ s.done = t.done

/-- Two edges agree on everything but data: the operands offered, the data line and the acknowledge line. -/
abbrev SameControlInputs (e f : EdgeInputs) : Prop :=
  e.rst = f.rst ∧ e.straps = f.straps ∧ e.cmdValid = f.cmdValid ∧
  hostOp e.hc = hostOp f.hc ∧ hostPad e.hc = hostPad f.hc

/-- Neither outcome is a next state without the other, next states are related by `R`, and faults agree. -/
def Agree (R : State → State → Prop) : Result → Result → Prop
  | .next s, .next t => R s t
  | .fault a, .fault b => a = b
  | .refused a, .refused b => a = b
  | _, _ => False

/-- The edge resets the engine. -/
def ResetsNext (s : State) : Prop :=
  ∃ inp rest, s.env.stim = .edge inp :: rest ∧ inp.rst = true

/-- The edge accepts the operation `i`: no reset, `CMD_VALID = 1` and a word that decodes to `i`. -/
abbrev Offers (inp : EdgeInputs) (i : Instr) : Prop :=
  inp.rst = false ∧ inp.cmdValid = true ∧ decodeHostCmd inp.hc = .ok i

/-- The number of edges after the acceptance edge before the one that captures bit `k` of byte `i`: `T_ATT`, then
`i` byte slots of `16 T_HALF + T_ACK`, then `k` bits of `2 T_HALF`, then `T_HALF` (spec/70_reset_and_hazards.md
R241, R243; spec/95_test_vectors.md V40). -/
def captureEdge (tp : TimingProfile) (i : Fin 9) (k : Fin 8) : Nat :=
  tp.tAtt + (16 * tp.tHalf + tp.tAck) * i.val + 2 * tp.tHalf * k.val + tp.tHalf - 1

/-- The response frame that a transaction captures from the data line over the edges after it starts. -/
def capturedFrame (tp : TimingProfile) (edges : List EdgeInputs) : Frame :=
  Vector.ofFn fun i => BitVec.ofFnLE fun k : Fin 8 => (edges.getD (captureEdge tp i k) default).dat

/-- None of the edges resets the engine: none has `rst = 1`. -/
abbrev NoReset (edges : List EdgeInputs) : Prop := ∀ e ∈ edges, e.rst = false

/-- Some edge offers an operation. -/
def anyOffer (edges : List EdgeInputs) : Bool := edges.any fun e => e.cmdValid

/-- A state after an operation, at the tick level: the state `x` of the line-event level with the sequencer idle
where its last transaction left it, `DONE` raised, and `ERR_OVR` set if an operation was offered meanwhile. -/
def settled (x : State) (t : Fin 3) (offered : Bool) : State :=
  { x with
    seq := ⟨.idle, t, 8, 7, 1⟩
    done := true
    err := { x.err with errOvr := x.err.errOvr || offered } }

end Sys2Proof.Safety
end

