-- ==== Sys2Proof/Certificates/Slice0/Obligations.lean ====
section
/-! DEFINITION. The statements about the PS2 protocol engine, from the numbered rules of spec/. -/

open Sys2Proof Sys2Proof.Machine Sys2Proof.Safety

/-! ### Encoding -/

/-- Sanity: words written out in the spec decode to the instructions they stand for (30_encoding.md R92, R96, R98;
the words are those of 95_test_vectors.md V10 to V15, V34 and programs P2, P3). -/
def Obligations.SpecWordsDecode : Prop :=
  decodeTableWord 24 0x20000 = some (.poll .pad1 0x00 0x00) ∧
  decodeTableWord 24 0x50103 = some (.setMode .pad2 0x01 0x03) ∧
  decodeTableWord 24 0x60001 = some (.enMotors .pad1 0x00 0x01) ∧
  decodeTableWord 24 0x8FF80 = some (.setMotorLevels .pad1 0xFF 0x80) ∧
  decodeTableWord 8 0x17 = some (.isDown .pad2 7) ∧
  decodeTableWord 8 0x63 = some (.axis .pad1 3) ∧
  decodeTableWord 72 0x014200FF8000000000 = some (.pollCmd 0xFF 0x80) ∧
  decodeTableWord 72 0x014D000001FFFFFFFF = some (.enMotorsCmd 0x00 0x01)

/-- Decode and encode agree on every well-formed instruction, ignored operand fields included. -/
def Obligations.EncodeThenDecodeReturnsInstruction : Prop :=
  ∀ i : Instr, i.wellFormed = true → decode (encode i) = .ok i

/-- Every word that decodes is the encoding of the instruction it decodes to, and that instruction is
well-formed: no two words mean the same instruction. -/
def Obligations.DecodedWordIsTheEncoding : Prop :=
  ∀ (c : CodeWord) (i : Instr), decode c = .ok i → encode i = c ∧ i.wellFormed = true

/-- The decoder is the table's: a word decodes to an instruction exactly when it selects that instruction's row of
spec/opcode_table.json, and a word that selects no row is rejected (30_encoding.md R106). -/
def Obligations.DecoderFollowsOpcodeTable : Prop :=
  (∀ (c : CodeWord) (i : Instr), decode c = .ok i →
    ∃ r ∈ opcodeTable, r.selects c = true ∧ r.mnemonic = i.mnemonic ∧
      ∀ r' ∈ opcodeTable, r'.selects c = true → r' = r) ∧
  (∀ (c : CodeWord) (e : Reject), decode c = .error e → ∀ r ∈ opcodeTable, r.selects c = false)

/-- Exactly the reserved codes are rejected on the host's ports, each under the name the decoder has for its class of
30_encoding.md R103 (a), (b), (c) and with the field that is reserved (R96, R98). -/
def Obligations.ReservedCodesRejectedExactly : Prop :=
  (∀ hc : BitVec 20, (∃ i, decodeHostCmd hc = .ok i) ↔
    hostOp hc = 1 ∨ hostOp hc = 2 ∨ hostOp hc = 3 ∨ hostOp hc = 4) ∧
  (∀ hc : BitVec 20, hostOp hc = 0 ∨ hostOp hc = 5 ∨ hostOp hc = 6 ∨ hostOp hc = 7 →
    decodeHostCmd hc = .error (.reservedHostOp (hostOp hc))) ∧
  (∀ qw : BitVec 8, (∃ i, decodeQuery qw = .ok i) ↔
    queryOp qw = 0 ∨ queryOp qw = 1 ∨ queryOp qw = 2 ∨ (queryOp qw = 3 ∧ (querySel qw).toNat < 4) ∨
    queryOp qw = 4 ∨ queryOp qw = 5) ∧
  (∀ qw : BitVec 8, queryOp qw = 6 ∨ queryOp qw = 7 → decodeQuery qw = .error (.reservedQueryOp (queryOp qw))) ∧
  (∀ qw : BitVec 8, queryOp qw = 3 → 4 ≤ (querySel qw).toNat →
    decodeQuery qw = .error (.reservedAxisSelector (querySel qw)))

/-! ### Steps -/

/-- A step on an edge that offers a decodable word runs that instruction, with `DONE` cleared before it (it is 0 but
after a completion, 10_state.md R34) and the sequencer's own advance after it where the engine was busy
(70_reset_and_hazards.md R241). That the two come in this order, and `DONE` before both, is the model's choice,
log entry 20 (DEDUCED); that the edge is taken from a list in State is log entry 2. -/
def Obligations.StepRunsOfferedInstruction : Prop :=
  ∀ (s : State) (inp : EdgeInputs) (rest : List Stimulus) (i : Instr),
    s.env.stim = .edge inp :: rest → Offers inp i →
    step s = andThen (exec i { s with done := false, env := { s.env with stim := rest } })
      fun t => if s.busy then advance inp.dat t else .next t

/-- A step that reads the query port with a decodable word runs that query and nothing else (10_state.md R42). That
a reading of the port is a step of its own, taken from a list in State, is log entries 1 and 2. -/
def Obligations.StepRunsQuery : Prop :=
  ∀ (s : State) (qw : BitVec 8) (rest : List Stimulus) (i : Instr),
    s.env.stim = .query qw :: rest → decodeQuery qw = .ok i →
    step s = exec i { s with env := { s.env with stim := rest } }

/-- The sequencer runs the wire commands (70_reset_and_hazards.md R241, `START_TXN`; that a wire command's meaning is
the start of the transaction that sends it is log entry 15): an accepted POLL runs POLL_CMD with the pad's motor
levels; an accepted SETMODE or ENMOTORS runs ENTER_CFG; the edge that ends transaction 0 of the bracket runs its
middle command, and the edge that ends transaction 1 runs EXIT_CFG. -/
def Obligations.SequencerRunsWireCommands : Prop :=
  (∀ (s : State) (p : Pad) (a b : Byte), s.seq.ph = .idle → (p = .pad2 → s.cfg.hasAtt2 = true) →
    exec (.poll p a b) s = exec (.pollCmd (s.mot1.get p) (s.mot2.get p))
      { s with opr := 1, padr := p, ar := a, br := b, prev := s.prev.set p (s.cur.get p),
               seq := { s.seq with t := 0 } } ∧
    exec (.setMode p a b) s = exec .enterCfg
      { s with opr := 2, padr := p, ar := a, br := b, seq := { s.seq with t := 0 } } ∧
    exec (.enMotors p a b) s = exec .enterCfg
      { s with opr := 3, padr := p, ar := a, br := b, seq := { s.seq with t := 0 } }) ∧
  (∀ (s : State) (dat : Bool), s.seq.ph = .interWait → s.seq.w = 1 →
    (s.opr = 2 → s.seq.t = 0 →
      advance dat s = exec (.setModeCmd s.ar s.br) { s with seq := { s.seq with t := 1 } }) ∧
    (s.opr = 3 → s.seq.t = 0 →
      advance dat s = exec (.enMotorsCmd s.ar s.br) { s with seq := { s.seq with t := 1 } }) ∧
    (s.opr = 2 ∨ s.opr = 3 → s.seq.t = 1 →
      advance dat s = exec .exitCfg { s with seq := { s.seq with t := 2 } }))

/-- A run of the machine over listed edges is the run of those edges one after another. This is about the model, not
the spec: that what the outside world does next (00_scope.md R7) stands in State as a list, consumed one entry a step,
is log entry 2 (DESIGN CHOICE). It carries the statements about `runEdges` to runs of the machine. -/
def Obligations.RunOverListedEdges : Prop :=
  ∀ (edges : List EdgeInputs) (rest : List Stimulus) (s : State),
    s.env.stim = edges.map .edge ++ rest →
    Host.Core.run core edges.length s = runEdges edges { s with env := { s.env with stim := rest } }

/-! ### Reset -/

/-- The reset values of 10_state.md R39, for any strap levels, and their consequence: before any POLL, ISDOWN is true
for every button of both pads, every other query answers 0. -/
def Obligations.ResetValues : Prop :=
  ∀ (straps : Straps) (env : Env), let s := State.resetWith straps env
    (∀ p i, s.read (.cur p i) = 0x00 ∧ s.read (.prev p i) = 0x00) ∧
    (∀ p, s.mot1.get p = 0x00 ∧ s.mot2.get p = 0x00) ∧
    s.cfg = straps ∧ s.tp = Config.profile straps.platform ∧ s.statusPort = 0b0000#4 ∧
    (∀ i, s.read (.resp i) = 0x00 ∧ s.read (.cbuf i) = 0x00) ∧
    s.txsr = 0x00 ∧ s.rxsr = 0x00 ∧ s.opr = 0 ∧ s.padr = .pad1 ∧ s.ar = 0x00 ∧ s.br = 0x00 ∧
    s.seq.ph = .idle ∧ s.seq.t = 0 ∧ s.seq.i = 0 ∧ s.seq.k = 0 ∧ s.seq.w = 0 ∧
    s.lClk = true ∧ s.lCmd = true ∧ s.lAtt1 = true ∧ s.lAtt2 = true ∧ s.done = false ∧
    (∀ p n, exec (.isDown p n) s = .next (s.report 0x01) ∧ exec (.pressed p n) s = .next (s.report 0x00) ∧
      exec (.released p n) s = .next (s.report 0x00) ∧ exec (.isAnalog p n) s = .next (s.report 0x00) ∧
      exec (.isDigital p n) s = .next (s.report 0x00) ∧
      (n.toNat < 4 → exec (.axis p n) s = .next (s.report 0x00)))

/-- A reset edge gives the reset state from any state, whatever runs and whatever is offered (70_reset_and_hazards.md
R220, R222): only the straps of that edge count, and the environment goes on (log entry 18). -/
def Obligations.ResetEdgeFromAnyState : Prop :=
  ∀ (s : State) (inp : EdgeInputs) (rest : List Stimulus), s.env.stim = .edge inp :: rest → inp.rst = true →
    step s = .next (State.resetWith inp.straps { s.env with stim := rest }) ∧
    ∀ s' : State, s'.env = s.env → step s' = step s

/-! ### Accepting operations -/

/-- An accepted POLL (42_session_ops.md R150, R154; 41_frame_formatter.md R142, R148): `PREV[p]` becomes `CUR[p]`,
the operation and its operands are latched (log entry 11), the command carries the motor levels of that moment, the
pad's attention line falls. -/
def Obligations.PollAccepted : Prop :=
  ∀ (s : State) (p : Pad) (a b : Byte), s.seq.ph = .idle → (p = .pad2 → s.cfg.hasAtt2 = true) →
    exec (.poll p a b) s = .next { s with
      prev := s.prev.set p (s.cur.get p)
      opr := 1, padr := p, ar := a, br := b
      cbuf := #v[0x01, 0x42, 0x00, s.mot1.get p, s.mot2.get p, 0x00, 0x00, 0x00, 0x00]
      seq := { s.seq with ph := .attWait, t := 0, w := s.tp.tAtt }
      lAtt1 := if p = .pad1 then false else s.lAtt1
      lAtt2 := if p = .pad2 then false else s.lAtt2 }

/-- An accepted SETMODE or ENMOTORS (42_session_ops.md R151, R152, R154; 41_frame_formatter.md R143): the operation
and its operands are latched and the transaction that sends ENTER_CFG starts; no buffer of a pad changes. -/
def Obligations.BracketAccepted : Prop :=
  ∀ (s : State) (p : Pad) (a b : Byte), s.seq.ph = .idle → (p = .pad2 → s.cfg.hasAtt2 = true) →
    (exec (.setMode p a b) s = .next { s with
      opr := 2, padr := p, ar := a, br := b
      cbuf := #v[0x01, 0x43, 0x00, 0x01, 0x00, 0x00, 0x00, 0x00, 0x00]
      seq := { s.seq with ph := .attWait, t := 0, w := s.tp.tAtt }
      lAtt1 := if p = .pad1 then false else s.lAtt1
      lAtt2 := if p = .pad2 then false else s.lAtt2 }) ∧
    (exec (.enMotors p a b) s = .next { s with
      opr := 3, padr := p, ar := a, br := b
      cbuf := #v[0x01, 0x43, 0x00, 0x01, 0x00, 0x00, 0x00, 0x00, 0x00]
      seq := { s.seq with ph := .attWait, t := 0, w := s.tp.tAtt }
      lAtt1 := if p = .pad1 then false else s.lAtt1
      lAtt2 := if p = .pad2 then false else s.lAtt2 })

/-- SETMOTORLEVELS (42_session_ops.md R153): only `MOT1[p]` and `MOT2[p]` change, for both pads whatever
`HAS_ATT2` is; while busy it sets `ERR_OVR` and nothing else. -/
def Obligations.MotorLevelsWritten : Prop :=
  ∀ (s : State) (p : Pad) (m1 m2 : Byte),
    (s.seq.ph = .idle →
      exec (.setMotorLevels p m1 m2) s =
        .next { s with mot1 := s.mot1.set p m1, mot2 := s.mot2.set p m2 }) ∧
    (s.seq.ph ≠ .idle →
      exec (.setMotorLevels p m1 m2) s = .next { s with err := { s.err with errOvr := true } })

/-- The edge that accepts SETMOTORLEVELS leaves the engine idle with `DONE` 0 and no line moved, so that the next edge
accepts another operation, and a POLL accepted on it already sends the new levels (42_session_ops.md R153, R235). -/
def Obligations.PollAfterMotorLevelsSendsThem : Prop :=
  ∀ (s : State) (e f : EdgeInputs) (p : Pad) (m1 m2 a b : Byte),
    s.seq.ph = .idle → (p = .pad2 → s.cfg.hasAtt2 = true) →
    Offers e (.setMotorLevels p m1 m2) → Offers f (.poll p a b) →
    (∃ t, clockEdge e s = .next t ∧ t.busy = false ∧ t.done = false ∧ ∀ l, t.level l = s.level l) ∧
    ∃ t, runEdges [e, f] s = .next t ∧ t.busy = true ∧
      t.cbuf = #v[0x01, 0x42, 0x00, m1, m2, 0x00, 0x00, 0x00, 0x00]

/-- `ERR_CFG` (60_exceptions.md R192): POLL, SETMODE or ENMOTORS for pad 2 offered to an idle engine without the pad 2
attention line sets the flag and changes nothing else, and the edge leaves the engine idle with `DONE` 0. -/
def Obligations.PadTwoWithoutLineSetsErrCfg : Prop :=
  ∀ (s : State) (inp : EdgeInputs) (i : Instr) (a b : Byte),
    s.seq.ph = .idle → s.cfg.hasAtt2 = false →
    i = .poll .pad2 a b ∨ i = .setMode .pad2 a b ∨ i = .enMotors .pad2 a b →
    exec i s = .next { s with err := { s.err with errCfg := true } } ∧
    (Offers inp i → clockEdge inp s = .next { s with err := { s.err with errCfg := true }, done := false })

/-- `ERR_OP` (60_exceptions.md R193) and its place before `ERR_CFG` (R195): a reserved code offered to an idle engine,
for either pad, sets `ERR_OP` and nothing else. -/
def Obligations.ReservedCodeSetsErrOp : Prop :=
  ∀ (s : State) (inp : EdgeInputs), s.seq.ph = .idle → inp.rst = false → inp.cmdValid = true →
    hostOp inp.hc = 0 ∨ hostOp inp.hc = 5 ∨ hostOp inp.hc = 6 ∨ hostOp inp.hc = 7 →
    clockEdge inp s = .next { s with err := { s.err with errOp := true }, done := false }

/-- `ERR_OVR` (60_exceptions.md R194): anything offered while the engine is busy sets the flag; the operation in
progress goes on as if nothing had been offered. -/
def Obligations.OfferWhileBusyOnlySetsErrOvr : Prop :=
  ∀ (s : State) (inp : EdgeInputs), s.seq.ph ≠ .idle → inp.rst = false → inp.cmdValid = true →
    clockEdge inp s = andThen (clockEdge { inp with cmdValid := false } s)
      fun t => .next { t with err := { t.err with errOvr := true } }

/-- The three flags are sticky (60_exceptions.md R197): no step but a reset clears one. -/
def Obligations.FlagsStickyUntilReset : Prop :=
  ∀ s t : State, step s = .next t → ¬ ResetsNext s →
    (s.err.errCfg = true → t.err.errCfg = true) ∧ (s.err.errOp = true → t.err.errOp = true) ∧
    (s.err.errOvr = true → t.err.errOvr = true)

/-- Frame of the operations that start transactions: whatever the acceptance step does, it writes only `PREV[p]`
(POLL alone), `CBUF`, the operand latches, `SEQ`, the pad's attention line and the flags `ERR_CFG`, `ERR_OVR`. -/
def Obligations.StartingOperationFrame : Prop :=
  ∀ (s t : State) (i : Instr) (p : Pad) (a b : Byte),
    i = .poll p a b ∨ i = .setMode p a b ∨ i = .enMotors p a b → exec i s = .next t →
    (∀ d : Addr, (∀ j, d ≠ .cbuf j) → (i = .poll p a b → ∀ j, d ≠ .prev p j) → t.read d = s.read d) ∧
    t.mot1 = s.mot1 ∧ t.mot2 = s.mot2 ∧ t.cfg = s.cfg ∧ t.tp = s.tp ∧ t.txsr = s.txsr ∧ t.rxsr = s.rxsr ∧
    t.lClk = s.lClk ∧ t.lCmd = s.lCmd ∧ (p = .pad1 → t.lAtt2 = s.lAtt2) ∧ (p = .pad2 → t.lAtt1 = s.lAtt1) ∧
    t.err.errOp = s.err.errOp ∧ t.done = s.done ∧ t.env = s.env

/-- Frame of SETMOTORLEVELS: only the pad's two motor bytes and `ERR_OVR` may change, and no byte of any store. -/
def Obligations.MotorLevelsFrame : Prop :=
  ∀ (s t : State) (p : Pad) (m1 m2 : Byte), exec (.setMotorLevels p m1 m2) s = .next t →
    (∀ d : Addr, t.read d = s.read d) ∧
    t = { s with mot1 := s.mot1.set p (t.mot1.get p), mot2 := s.mot2.set p (t.mot2.get p),
                 err := { s.err with errOvr := t.err.errOvr } }

/-! ### Wire commands and transactions -/

/-- A wire command starts the transaction that sends it (41_frame_formatter.md R142 to R146, R148; log entry 15):
`CBUF` holds its nine bytes as 30_encoding.md R92 lists them, the attention line of the pad in `PADR` falls, and the
sequencer enters `ATT_WAIT`; nothing else changes. -/
def Obligations.WireCommandStartsTransaction : Prop :=
  ∀ (s : State) (i : Instr) (f : Frame), encode i = .wireCmd f → (s.padr = .pad2 → s.cfg.hasAtt2 = true) →
    exec i s = .next { s with
      cbuf := f
      seq := { s.seq with ph := .attWait, w := s.tp.tAtt }
      lAtt1 := if s.padr = .pad1 then false else s.lAtt1
      lAtt2 := if s.padr = .pad2 then false else s.lAtt2 }

/-- Frame of the wire commands: no byte outside `CBUF` and no register but `SEQ` and the selected attention line. -/
def Obligations.WireCommandFrame : Prop :=
  ∀ (s t : State) (i : Instr) (f : Frame), encode i = .wireCmd f → exec i s = .next t →
    (∀ d : Addr, (∀ j, d ≠ .cbuf j) → t.read d = s.read d) ∧
    (s.padr = .pad1 → t.lAtt2 = s.lAtt2) ∧ (s.padr = .pad2 → t.lAtt1 = s.lAtt1) ∧
    t.seq.t = s.seq.t ∧ t.seq.i = s.seq.i ∧ t.seq.k = s.seq.k ∧
    t = { s with cbuf := t.cbuf, seq := t.seq, lAtt1 := t.lAtt1, lAtt2 := t.lAtt2 }

/-- TRANSACT is never entered with its precondition false (41_frame_formatter.md R140, R141): the model stops there
by name. That it stops, and under which name, is log entry 13. -/
def Obligations.NoTransactionWithoutAttentionLine : Prop :=
  ∀ (s : State) (i : Instr) (f : Frame), encode i = .wireCmd f → s.padr = .pad2 → s.cfg.hasAtt2 = false →
    exec i s = .fault .noAttentionLine

/-- XFER_BYTE in closed form (40_serial_transceiver.md R131): the level on `CMD` during pulse `k` is bit `k` of the
byte sent, and bit `k` of the byte received is the `k`-th sample, whatever `RXSR` held before. -/
def Obligations.TransferredByteClosedForm : Prop :=
  ∀ (b ans : Byte) (s : State),
    (xferByte b ans s).1.rxsr = ans ∧
    (xferByte b ans s).2.cmdLevels = byteBits b ∧
    (xferByte b ans s).2.samples = byteBits ans ∧
    (xferByte b ans s).2 = (List.finRange 8).flatMap fun k =>
      [.set .cmd (b.getLsbD k.val), .set .clk false, .wait s.tp.tHalf,
       .set .clk true, .sample (ans.getLsbD k.val), .wait s.tp.tHalf]

/-- XFER_BYTE writes `TXSR`, `RXSR`, `L_CMD`, `L_CLK` and nothing else (40_serial_transceiver.md R130), and leaves the
clock high, `CMD` at bit 7 of the byte sent and `TXSR` empty (R132; 10_state.md R28). -/
def Obligations.TransferredByteState : Prop :=
  ∀ (b ans : Byte) (s : State),
    (xferByte b ans s).1 = { s with txsr := 0x00, rxsr := ans, lClk := true, lCmd := b.getLsbD 7 }

/-- The duration of XFER_BYTE is sixteen half-cycles (40_serial_transceiver.md R133). -/
def Obligations.TransferredByteDuration : Prop :=
  ∀ (b ans : Byte) (s : State), (xferByte b ans s).2.duration = 16 * s.tp.tHalf

/-- The shape and the duration of a transaction's trace (41_frame_formatter.md R147). -/
def Obligations.TransactionTraceShape : Prop :=
  ∀ (p : Pad) (ans : Frame) (s : State), let t := (transact p ans s).2
    t.length = 445 ∧ t.samples.length = 72 ∧ t.countSets .cmd = 72 ∧ t.countSets .clk = 144 ∧
    t.countSets (attLine p) = 2 ∧ t.countWaits = 155 ∧ t.duration = txnTicks s.tp ∧
    (∀ p', p' ≠ p → t.countSets (attLine p') = 0) ∧
    t = .set (attLine p) false :: .wait s.tp.tAtt ::
      ((List.finRange 9).flatMap fun i => (xferByte s.cbuf[i] ans[i] s).2 ++ [.wait s.tp.tAck]) ++
      [.set (attLine p) true, .wait s.tp.tInter]

/-- What a transaction sends and stores (20_memory.md R62, R63; 41_frame_formatter.md R140, R149): the nine bytes of
`CBUF` go out and the nine bytes of the answer come in, byte 0 first and bit 0 first, and `RESP` is the answer; the
attention line and the clock are left high and `CMD` at bit 7 of byte 8. -/
def Obligations.TransactionSendsAndStores : Prop :=
  ∀ (p : Pad) (ans : Frame) (s : State),
    (transact p ans s).2.cmdLevels = ((List.finRange 9).flatMap fun i => byteBits s.cbuf[i]) ∧
    (transact p ans s).2.samples = ((List.finRange 9).flatMap fun i => byteBits ans[i]) ∧
    (transact p ans s).1 = { s with
      resp := ans, txsr := 0x00, rxsr := ans[8], lClk := true, lCmd := s.cbuf[8].getLsbD 7
      lAtt1 := if p = .pad1 then true else s.lAtt1
      lAtt2 := if p = .pad2 then true else s.lAtt2 }

/-! ### The operation level -/

/-- The line-event level realises the operation level (42_session_ops.md R160): with any answers, each operation
changes the architectural state as its function says and puts on `CMD` the bits of the wire commands it emits. -/
def Obligations.LineLevelRealisesOperationLevel : Prop :=
  ∀ (s : State) (p : Pad) (a b : Byte) (r r0 r1 r2 : Frame), (p = .pad2 → s.cfg.hasAtt2 = true) →
    ((pollEvents p a b r s).1.arch = (opPoll s.cfg.hasAtt2 s.arch p r).arch ∧
      (pollEvents p a b r s).2.cmdLevels =
        (opPoll s.cfg.hasAtt2 s.arch p r).emitted.flatMap fun f =>
          (List.finRange 9).flatMap fun i => byteBits f[i]) ∧
    ((setModeEvents p a b r0 r1 r2 s).1.arch = (opSetMode s.cfg.hasAtt2 s.arch p a b).arch ∧
      (setModeEvents p a b r0 r1 r2 s).2.cmdLevels =
        (opSetMode s.cfg.hasAtt2 s.arch p a b).emitted.flatMap fun f =>
          (List.finRange 9).flatMap fun i => byteBits f[i]) ∧
    ((enMotorsEvents p a b r0 r1 r2 s).1.arch = (opEnMotors s.cfg.hasAtt2 s.arch p a b).arch ∧
      (enMotorsEvents p a b r0 r1 r2 s).2.cmdLevels =
        (opEnMotors s.cfg.hasAtt2 s.arch p a b).emitted.flatMap fun f =>
          (List.finRange 9).flatMap fun i => byteBits f[i])

/-- A POLL at the tick level is the POLL of the line-event level (70_reset_and_hazards.md R242, 42_session_ops.md
R150, R159): over the acceptance edge and exactly `D_TXN` more edges, whatever the device answers and whatever is
offered meanwhile, the edges bear exactly its events at its distances, and the final state is its final state. What
`SEQ` keeps at the end is log entry 21, which events an edge bears log entry 24. -/
def Obligations.PollRunsAsItsEvents : Prop :=
  ∀ (s : State) (e : EdgeInputs) (edges : List EdgeInputs) (p : Pad) (a b : Byte),
    s.seq.ph = .idle → s.tp.positive → (p = .pad2 → s.cfg.hasAtt2 = true) →
    Offers e (.poll p a b) → NoReset edges → edges.length = txnTicks s.tp →
    let x := pollEvents p a b (capturedFrame s.tp edges) s
    runEdges (e :: edges) s = .next (settled x.1 0 (anyOffer edges)) ∧
    edgeTrace (e :: edges) s = .wait 1 :: x.2.unitWaits

/-- SETMODE and ENMOTORS at the tick level are those of the line-event level, over exactly three transactions
(70_reset_and_hazards.md R242; 42_session_ops.md R151, R152, R159; log entries 21 and 24). -/
def Obligations.BracketRunsAsItsEvents : Prop :=
  ∀ (s : State) (e : EdgeInputs) (edges : List EdgeInputs) (p : Pad) (a b : Byte),
    s.seq.ph = .idle → s.tp.positive → (p = .pad2 → s.cfg.hasAtt2 = true) →
    NoReset edges → edges.length = 3 * txnTicks s.tp →
    let r0 := capturedFrame s.tp edges
    let r1 := capturedFrame s.tp (edges.drop (txnTicks s.tp))
    let r2 := capturedFrame s.tp (edges.drop (2 * txnTicks s.tp))
    (Offers e (.setMode p a b) → let x := setModeEvents p a b r0 r1 r2 s
      runEdges (e :: edges) s = .next (settled x.1 2 (anyOffer edges)) ∧
      edgeTrace (e :: edges) s = .wait 1 :: x.2.unitWaits) ∧
    (Offers e (.enMotors p a b) → let x := enMotorsEvents p a b r0 r1 r2 s
      runEdges (e :: edges) s = .next (settled x.1 2 (anyOffer edges)) ∧
      edgeTrace (e :: edges) s = .wait 1 :: x.2.unitWaits)

/-- The operation level at the tick level (42_session_ops.md R150, R151, R152, R158, R159; 20_memory.md R67): over the
acceptance edge and exactly `D_TXN` more edges a POLL sets `CUR[p]` to the captured response and `PREV[p]` to the old
`CUR[p]` with bytes 3 and 4 the change mask; over `3 x D_TXN` more edges SETMODE and ENMOTORS change no buffer and no motor
level. The engine is then idle with `DONE` 1, whatever was offered meanwhile. -/
def Obligations.OperationsTakeArchitecturalEffect : Prop :=
  ∀ (s : State) (e : EdgeInputs) (edges : List EdgeInputs) (p : Pad) (a b : Byte),
    s.seq.ph = .idle → s.tp.positive → (p = .pad2 → s.cfg.hasAtt2 = true) → NoReset edges →
    (Offers e (.poll p a b) → edges.length = txnTicks s.tp →
      let r := capturedFrame s.tp edges
      let old := s.cur.get p
      ∃ t, runEdges (e :: edges) s = .next t ∧ t.busy = false ∧ t.done = true ∧
        t.arch = { s.arch with
          cur := s.cur.set p r
          prev := s.prev.set p #v[old[0], old[1], old[2], old[3] ^^^ r[3], old[4] ^^^ r[4], old[5], old[6], old[7], old[8]] }) ∧
    (Offers e (.setMode p a b) ∨ Offers e (.enMotors p a b) → edges.length = 3 * txnTicks s.tp →
      ∃ t, runEdges (e :: edges) s = .next t ∧ t.busy = false ∧ t.done = true ∧ t.arch = s.arch)

/-- `BUSY` is 1 from the acceptance edge to the completion edge (42_session_ops.md R150, R159; 70_reset_and_hazards.md
R230): after the acceptance of a POLL and fewer than `D_TXN` more edges the engine is busy, `DONE` is 0 and `CUR` is
what it was. -/
def Obligations.PollStaysBusyUntilCompletion : Prop :=
  ∀ (s : State) (e : EdgeInputs) (edges : List EdgeInputs) (p : Pad) (a b : Byte),
    s.seq.ph = .idle → s.tp.positive → (p = .pad2 → s.cfg.hasAtt2 = true) →
    Offers e (.poll p a b) → NoReset edges → edges.length < txnTicks s.tp →
    ∃ t, runEdges (e :: edges) s = .next t ∧ t.busy = true ∧ t.done = false ∧ t.cur = s.cur

/-- The change mask (42_session_ops.md R155): after a POLL, bit `m` of `PREV[p][j]`, for `j` 3 and 4, is set exactly
when the response differs there from what `CUR[p]` held; a transition from 1 to 0 reads PRESSED and not RELEASED,
one from 0 to 1 the reverse, none neither; and after a further POLL with the same two bytes both are false. -/
def Obligations.ChangeMaskLaws : Prop :=
  ∀ (s : State) (p : Pad) (a b : Byte) (r : Frame) (n : BitVec 4), s.seq.ph = .idle →
    let j := buttonIndex n
    let m := n.toNat % 8
    let c := (s.cur.get p)[j].getLsbD m
    let t := (pollEvents p a b r s).1
    (t.prev.get p)[j].getLsbD m = (c != r[j].getLsbD m) ∧
    exec (.pressed p n) t = .next (t.report (if c = true ∧ r[j].getLsbD m = false then 0x01 else 0x00)) ∧
    exec (.released p n) t = .next (t.report (if c = false ∧ r[j].getLsbD m = true then 0x01 else 0x00)) ∧
    ∀ r' : Frame, r'[j].getLsbD m = r[j].getLsbD m →
      let t' := (pollEvents p a b r' t).1
      exec (.pressed p n) t' = .next (t'.report 0x00) ∧ exec (.released p n) t' = .next (t'.report 0x00)

/-! ### Queries -/

/-- The button queries at idle (43_button_decoder.md R170, R171, R172), in the bits they read: button `n` is bit
`n[2:0]` of frame byte `3 + n[3]`. -/
def Obligations.ButtonQueriesAnswer : Prop :=
  ∀ (s : State) (p : Pad) (n : BitVec 4), s.seq.ph = .idle →
    let idx : Fin 9 := if n.toNat < 8 then 3 else 4
    let held := !((s.cur.get p)[idx].getLsbD (n.toNat % 8))
    let changed := (s.prev.get p)[idx].getLsbD (n.toNat % 8)
    exec (.isDown p n) s = .next (s.report (if held then 0x01 else 0x00)) ∧
    exec (.pressed p n) s = .next (s.report (if changed && held then 0x01 else 0x00)) ∧
    exec (.released p n) s = .next (s.report (if changed && !held then 0x01 else 0x00))

/-- AXIS at idle (43_button_decoder.md R173): the raw byte `CUR[p][5 + a]`, whatever the mode nibble says. Where
`Q_SEL[3:2]` is not 0 the spec says only that the result is unspecified; that the model then reports a free value and
advances the counter of free values is its choice, log entries 7 and 8. -/
def Obligations.AxisQueryAnswers : Prop :=
  ∀ (s : State) (p : Pad) (sel : BitVec 4), s.seq.ph = .idle →
    ((h : sel.toNat < 4) → exec (.axis p sel) s = .next (s.report ((s.cur.get p)[5 + sel.toNat]))) ∧
    (4 ≤ sel.toNat → exec (.axis p sel) s = .next { s with env := { s.env with
      qResult := Config.freeQResult s.env.freeCount, freeCount := s.env.freeCount + 1 } })

/-- ISANALOG and ISDIGITAL at idle (43_button_decoder.md R174, R175): the high nibble of `CUR[p][1]` is 7, is 4; the
selector is ignored. -/
def Obligations.ModeQueriesAnswer : Prop :=
  ∀ (s : State) (p : Pad) (sel : BitVec 4), s.seq.ph = .idle →
    let nibble := (s.cur.get p)[1].toNat / 16
    exec (.isAnalog p sel) s = .next (s.report (if nibble = 7 then 0x01 else 0x00)) ∧
    exec (.isDigital p sel) s = .next (s.report (if nibble = 4 then 0x01 else 0x00))

/-- No query changes the engine (20_memory.md R69; 10_state.md R42; 30_encoding.md R103 b): whatever it answers, busy
or not, a query instruction, and a reading of the port with any word, a reserved one included (log entry 8), gives a
next state that differs only in the model's record of the port. -/
def Obligations.QueriesChangeNoEngineState : Prop :=
  (∀ (s : State) (i : Instr) (qw : BitVec 8), encode i = .query qw →
    ∃ t, exec i s = .next t ∧ (∀ d : Addr, t.read d = s.read d) ∧ t.env.stim = s.env.stim ∧
      t = { s with env := t.env }) ∧
  (∀ (s : State) (qw : BitVec 8),
    ∃ t, readQuery qw s = .next t ∧ (∀ d : Addr, t.read d = s.read d) ∧ t.env.stim = s.env.stim ∧
      t = { s with env := t.env })

/-- While `BUSY` is 1 a query's result is unspecified (20_memory.md R68), and so is that of a reserved query code and
of a reserved selector of AXIS (30_encoding.md R103 b, c): the model answers a free value, of which nothing is known,
and takes a fresh one, its choice (log entries 7 and 8). -/
def Obligations.QueryWhileBusyAnswersFreely : Prop :=
  (∀ (s : State) (i : Instr) (qw : BitVec 8), encode i = .query qw →
    s.seq.ph ≠ .idle ∨ i.wellFormed = false →
    exec i s = .next { s with env := { s.env with
      qResult := Config.freeQResult s.env.freeCount, freeCount := s.env.freeCount + 1 } }) ∧
  (∀ (s : State) (qw : BitVec 8),
    s.seq.ph ≠ .idle ∨ queryOp qw = 6 ∨ queryOp qw = 7 ∨ (queryOp qw = 3 ∧ 4 ≤ (querySel qw).toNat) →
    readQuery qw s = .next { s with env := { s.env with
      qResult := Config.freeQResult s.env.freeCount, freeCount := s.env.freeCount + 1 } })

/-- Properties of the decoder (43_button_decoder.md R178): at most one of PRESSED, RELEASED is true; PRESSED implies
ISDOWN and RELEASED implies not ISDOWN; ISANALOG and ISDIGITAL exclude each other; AXIS takes every value; a query
asked again answers the same; and a catalogue mask tests one bit. -/
def Obligations.DecoderProperties : Prop :=
  (∀ (s : State) (p : Pad) (n : BitVec 4), s.seq.ph = .idle →
    ∃ d pr re : Byte, exec (.isDown p n) s = .next (s.report d) ∧ exec (.pressed p n) s = .next (s.report pr) ∧
      exec (.released p n) s = .next (s.report re) ∧ ¬ (pr = 0x01 ∧ re = 0x01) ∧
      (pr = 0x01 → d = 0x01) ∧ (re = 0x01 → d = 0x00)) ∧
  (∀ (s : State) (p : Pad) (sel : BitVec 4), s.seq.ph = .idle →
    ∃ an di : Byte, exec (.isAnalog p sel) s = .next (s.report an) ∧
      exec (.isDigital p sel) s = .next (s.report di) ∧ ¬ (an = 0x01 ∧ di = 0x01)) ∧
  (∀ (p : Pad) (sel : BitVec 4) (v : Byte), sel.toNat < 4 →
    ∃ s : State, s.seq.ph = .idle ∧ exec (.axis p sel) s = .next (s.report v)) ∧
  (∀ (s t : State) (i : Instr) (qw : BitVec 8), encode i = .query qw → i.wellFormed = true →
    s.seq.ph = .idle → exec i s = .next t → exec i t = .next t) ∧
  (∀ (x : Byte) (n : BitVec 4), (x &&& buttonMask n = 0x00) ↔ x.getLsbD (n.toNat % 8) = false)

/-! ### The sequencer, edge by edge -/

/-- Waiting (70_reset_and_hazards.md R241): on an edge on which nothing is offered an idle engine does nothing (first
row) and a busy one with `W > 1` only counts down; `DONE` is 0 after either (10_state.md R34). -/
def Obligations.WaitRowsCountDown : Prop :=
  ∀ (s : State) (inp : EdgeInputs), inp.rst = false → inp.cmdValid = false →
    (s.seq.ph = .idle → clockEdge inp s = .next { s with done := false }) ∧
    (s.seq.ph ≠ .idle → 1 < s.seq.w →
      clockEdge inp s = .next { s with seq := { s.seq with w := s.seq.w - 1 }, done := false })

/-- The bit-level rows of 70_reset_and_hazards.md R241 (also 40_serial_transceiver.md R134): the ends of `ATT_WAIT`,
of `CLK_LOW`, of `CLK_HIGH` and of `ACK_WAIT`. -/
def Obligations.ByteRowsOfSequencer : Prop :=
  ∀ (s : State) (dat : Bool), s.seq.w = 1 →
    (s.seq.ph = .attWait → advance dat s = .next { s with
      lCmd := s.cbuf[0].getLsbD 0, lClk := false, txsr := s.cbuf[0] >>> 1
      seq := { s.seq with ph := .clkLow, i := 0, k := 0, w := s.tp.tHalf } }) ∧
    (s.seq.ph = .clkLow → advance dat s = .next { s with
      lClk := true, rxsr := BitVec.ofBool dat ++ s.rxsr.extractLsb' 1 7
      seq := { s.seq with ph := .clkHigh, w := s.tp.tHalf } }) ∧
    (s.seq.ph = .clkHigh → s.seq.k.val < 7 → advance dat s = .next { s with
      lCmd := s.txsr.getLsbD 0, lClk := false, txsr := s.txsr >>> 1
      seq := { s.seq with ph := .clkLow, k := s.seq.k + 1, w := s.tp.tHalf } }) ∧
    (s.seq.ph = .clkHigh → s.seq.k.val = 7 → advance dat s = .next { s with
      resp := s.resp.set s.seq.i s.rxsr
      seq := { s.seq with ph := .ackWait, w := s.tp.tAck } }) ∧
    (s.seq.ph = .ackWait → (h : s.seq.i.val < 8) → advance dat s = .next { s with
      lCmd := s.cbuf[s.seq.i.val + 1].getLsbD 0, lClk := false, txsr := s.cbuf[s.seq.i.val + 1] >>> 1
      seq := { s.seq with ph := .clkLow, i := s.seq.i + 1, k := 0, w := s.tp.tHalf } }) ∧
    (s.seq.ph = .ackWait → s.seq.i.val = 8 → advance dat s = .next { s with
      lAtt1 := if s.padr = .pad1 then true else s.lAtt1
      lAtt2 := if s.padr = .pad2 then true else s.lAtt2
      seq := { s.seq with ph := .interWait, w := s.tp.tInter } })

/-- The last rows of 70_reset_and_hazards.md R241: the end of the last transaction stores a POLL's response, with the
two exclusive ORs, goes idle and raises `DONE`; SETMODE and ENMOTORS store nothing (42_session_ops.md R158). That
`SEQ.T`, `SEQ.I`, `SEQ.K` and `SEQ.W` keep their values in IDLE is the model's choice, log entry 21 (DEDUCED). -/
def Obligations.CompletionRowsOfSequencer : Prop :=
  ∀ (s : State) (dat : Bool), s.seq.ph = .interWait → s.seq.w = 1 →
    (s.opr = 1 → s.seq.t = 0 → ∃ t, advance dat s = .next t ∧
      (∀ i, t.read (.cur s.padr i) = s.read (.resp i)) ∧
      t.read (.prev s.padr 3) = s.read (.prev s.padr 3) ^^^ s.read (.resp 3) ∧
      t.read (.prev s.padr 4) = s.read (.prev s.padr 4) ^^^ s.read (.resp 4) ∧
      (∀ d : Addr, (∀ i, d ≠ .cur s.padr i) → d ≠ .prev s.padr 3 → d ≠ .prev s.padr 4 → t.read d = s.read d) ∧
      t = { s with cur := t.cur, prev := t.prev, seq := { s.seq with ph := .idle }, done := true }) ∧
    (s.opr = 2 ∨ s.opr = 3 → s.seq.t = 2 →
      advance dat s = .next { s with seq := { s.seq with ph := .idle }, done := true })

/-- `DONE` (10_state.md R34): after a clock edge it is 1 exactly when that edge, without reset, took the phase from
`INTER_WAIT` to `IDLE`, which is the end of the last transaction of an operation; a reading of the query port leaves
it alone, and it is 0 after reset. -/
def Obligations.DonePulsesAtCompletionOnly : Prop :=
  (∀ (s t : State) (inp : EdgeInputs), clockEdge inp s = .next t →
    (t.done = true ↔ inp.rst = false ∧ s.seq.ph = .interWait ∧ t.seq.ph = .idle) ∧
    (t.done = true → ∃ op, TxnOp.ofCode s.opr = some op ∧ s.seq.t = op.last)) ∧
  (∀ (s t : State) (qw : BitVec 8), readQuery qw s = .next t → t.done = s.done) ∧
  State.reset.done = false

/-- `STATUS` (10_state.md R31, R43): bit 0 is 1 exactly when the phase is not `IDLE`; bits 1, 2, 3 are the flags. -/
def Obligations.StatusPortBits : Prop :=
  ∀ s : State, (s.statusPort.getLsbD 0 = true ↔ s.seq.ph ≠ .idle) ∧
    s.statusPort.getLsbD 1 = s.err.errCfg ∧ s.statusPort.getLsbD 2 = s.err.errOp ∧
    s.statusPort.getLsbD 3 = s.err.errOvr

/-! ### Invariants and rules about the whole machine -/

/-- Sanity: the reset state satisfies every invariant stated below. -/
def Obligations.ResetStateMeetsInvariants : Prop :=
  SeqInv State.reset ∧ LinesFollowPhase State.reset ∧ LinkInv State.reset ∧
  AbsentPad2Untouched State.reset ∧ NoError State.reset ∧
  State.reset.tp = Config.profile State.reset.cfg.platform

/-- Every step keeps the sequencer's position one that the table has a row for (10_state.md R32; 70_reset_and_hazards.md
R241), and from such a position no step stops: every outcome is a next state (42_session_ops.md R156). -/
def Obligations.SequencerInvariantKept : Prop :=
  ∀ s : State, SeqInv s → ∃ t, step s = .next t ∧ SeqInv t

/-- Every step keeps the lines at what the phase says, and so the invariants of 10_state.md R47 hold in every state
reached from one where the lines follow the phase. -/
def Obligations.LinkInvariantKept : Prop :=
  ∀ s t : State, LinesFollowPhase s → step s = .next t → LinesFollowPhase t ∧ LinkInv t

/-- Without the pad 2 attention line its latch stays high and pad 2's buffers keep their reset zeros (10_state.md R44;
43_button_decoder.md R179): kept by every step, a reset that changes the straps included. -/
def Obligations.AbsentPadTwoStaysUntouched : Prop :=
  ∀ s t : State, SeqInv s → AbsentPad2Untouched s → step s = .next t → AbsentPad2Untouched t

/-- `CFG` and `TP` change only at reset (10_state.md R23, R24), and `TP` is always the profile of the platform strap. -/
def Obligations.ConfigurationFixedAtReset : Prop :=
  (∀ s t : State, step s = .next t → ¬ ResetsNext s → t.cfg = s.cfg ∧ t.tp = s.tp) ∧
  (∀ s t : State, s.tp = Config.profile s.cfg.platform → step s = .next t →
    t.tp = Config.profile t.cfg.platform)

/-- `CUR[p]` is written only by POLL for pad `p`, at its completion, with the nine bytes of the response (10_state.md
R21): any step but a reset that changes it is that one. -/
def Obligations.CurrentFrameWrittenOnlyByPoll : Prop :=
  ∀ (s t : State) (p : Pad), step s = .next t → ¬ ResetsNext s → t.cur.get p ≠ s.cur.get p →
    t.cur.get p = s.resp ∧ s.opr = 1 ∧ s.padr = p ∧ s.seq.ph = .interWait ∧ t.seq.ph = .idle ∧ t.done = true

/-- `PREV[p]` is written only by POLL for pad `p`, at its acceptance and at its completion (10_state.md R22). -/
def Obligations.PreviousFrameWrittenOnlyByPoll : Prop :=
  ∀ (s t : State) (p : Pad), step s = .next t → ¬ ResetsNext s → t.prev.get p ≠ s.prev.get p →
    t.opr = 1 ∧ t.padr = p ∧
    ((s.seq.ph = .idle ∧ t.seq.ph = .attWait ∧ t.prev.get p = s.cur.get p) ∨
     (s.seq.ph = .interWait ∧ t.seq.ph = .idle ∧ t.prev.get p = changeMask (s.prev.get p) s.resp))

/-- The motor levels are written only by SETMOTORLEVELS accepted at idle (10_state.md R25). -/
def Obligations.MotorLevelsWrittenOnlyBySetMotorLevels : Prop :=
  ∀ (s t : State) (p : Pad), step s = .next t → ¬ ResetsNext s →
    t.mot1.get p ≠ s.mot1.get p ∨ t.mot2.get p ≠ s.mot2.get p →
    ∃ inp rest m1 m2, s.env.stim = .edge inp :: rest ∧ Offers inp (.setMotorLevels p m1 m2) ∧
      s.seq.ph = .idle ∧ t.mot1.get p = m1 ∧ t.mot2.get p = m2

/-- No transition depends on data (10_state.md R37, 42_session_ops.md R156): two engines that agree on everything but
data, on edges that agree on everything but data, do the same thing: both stop for the same reason, or both go on and
still agree. -/
def Obligations.SequencingIndependentOfData : Prop :=
  ∀ (s t : State) (e f : EdgeInputs), SameControl s t → SameControlInputs e f →
    Agree SameControl (clockEdge e s) (clockEdge f t)

/-- The acknowledge input is never read, and no rule reads `HAS_ACK` (10_state.md R23, R44): an edge does the same
whatever their values are. -/
def Obligations.AcknowledgeNeverRead : Prop :=
  (∀ (s : State) (inp : EdgeInputs) (v : Bool), clockEdge { inp with ack := v } s = clockEdge inp s) ∧
  (∀ (s : State) (inp : EdgeInputs) (v : Bool), inp.rst = false →
    clockEdge inp { s with cfg := { s.cfg with hasAck := v } } =
      andThen (clockEdge inp s) fun t => .next { t with cfg := { t.cfg with hasAck := v } })

/-! ### The configuration bracket -/

/-- `BUSY` is 1 from the acceptance edge to the completion edge of the whole bracket (42_session_ops.md R151, R152,
R159; 70_reset_and_hazards.md R230): after the acceptance of a SETMODE or an ENMOTORS and fewer than `3 x D_TXN` more
edges, the ends of the first two transactions included, the engine is busy, `DONE` is 0, and no buffer of a pad and no
motor level has changed, whatever was offered meanwhile. -/
def Obligations.BracketStaysBusyUntilCompletion : Prop :=
  ∀ (s : State) (e : EdgeInputs) (edges : List EdgeInputs) (p : Pad) (a b : Byte),
    s.seq.ph = .idle → s.tp.positive → (p = .pad2 → s.cfg.hasAtt2 = true) →
    Offers e (.setMode p a b) ∨ Offers e (.enMotors p a b) → NoReset edges → edges.length < 3 * txnTicks s.tp →
    ∃ t, runEdges (e :: edges) s = .next t ∧ t.busy = true ∧ t.done = false ∧ t.arch = s.arch
end

