-- ==== Sys2Proof/Laws/State.lean ====
section
/-! SUPPORT. One lemma for each field of State and each named update of State: what the update leaves in the field. -/

namespace Sys2Proof

section PerPad

variable {α : Type} (x : PerPad α) (v w : α)

@[simp] theorem PerPad.get_set_same (p : Pad) : (x.set p v).get p = v := by cases p <;> rfl

theorem PerPad.get_set_other {p q : Pad} (h : q ≠ p) : (x.set p v).get q = x.get q := by
  cases p <;> cases q <;> first | rfl | exact absurd rfl h

theorem PerPad.get_set (p q : Pad) : (x.set p v).get q = if q = p then v else x.get q := by
  cases p <;> cases q <;> rfl

@[simp] theorem PerPad.set_get (p : Pad) : x.set p (x.get p) = x := by cases p <;> rfl

@[simp] theorem PerPad.set_set (p : Pad) : (x.set p v).set p w = x.set p w := by cases p <;> rfl

end PerPad

@[simp] theorem Pad.ofBit_bit (p : Pad) : Pad.ofBit p.bit = p := by cases p <;> rfl

@[simp] theorem Pad.bit_ofBit (b : Bool) : (Pad.ofBit b).bit = b := by cases b <;> rfl

end Sys2Proof

namespace Sys2Proof.Machine

variable (s : State)

/-! ### State.setLine -/

@[simp] theorem setLine_cur (l : Line) (v : Bool) : (s.setLine l v).cur = s.cur := by cases l <;> rfl

@[simp] theorem setLine_prev (l : Line) (v : Bool) : (s.setLine l v).prev = s.prev := by cases l <;> rfl

@[simp] theorem setLine_mot1 (l : Line) (v : Bool) : (s.setLine l v).mot1 = s.mot1 := by cases l <;> rfl

@[simp] theorem setLine_mot2 (l : Line) (v : Bool) : (s.setLine l v).mot2 = s.mot2 := by cases l <;> rfl

@[simp] theorem setLine_cfg (l : Line) (v : Bool) : (s.setLine l v).cfg = s.cfg := by cases l <;> rfl

@[simp] theorem setLine_tp (l : Line) (v : Bool) : (s.setLine l v).tp = s.tp := by cases l <;> rfl

@[simp] theorem setLine_err (l : Line) (v : Bool) : (s.setLine l v).err = s.err := by cases l <;> rfl

@[simp] theorem setLine_resp (l : Line) (v : Bool) : (s.setLine l v).resp = s.resp := by cases l <;> rfl

@[simp] theorem setLine_cbuf (l : Line) (v : Bool) : (s.setLine l v).cbuf = s.cbuf := by cases l <;> rfl

@[simp] theorem setLine_txsr (l : Line) (v : Bool) : (s.setLine l v).txsr = s.txsr := by cases l <;> rfl

@[simp] theorem setLine_rxsr (l : Line) (v : Bool) : (s.setLine l v).rxsr = s.rxsr := by cases l <;> rfl

@[simp] theorem setLine_opr (l : Line) (v : Bool) : (s.setLine l v).opr = s.opr := by cases l <;> rfl

@[simp] theorem setLine_padr (l : Line) (v : Bool) : (s.setLine l v).padr = s.padr := by cases l <;> rfl

@[simp] theorem setLine_ar (l : Line) (v : Bool) : (s.setLine l v).ar = s.ar := by cases l <;> rfl

@[simp] theorem setLine_br (l : Line) (v : Bool) : (s.setLine l v).br = s.br := by cases l <;> rfl

@[simp] theorem setLine_seq (l : Line) (v : Bool) : (s.setLine l v).seq = s.seq := by cases l <;> rfl

@[simp] theorem setLine_done (l : Line) (v : Bool) : (s.setLine l v).done = s.done := by cases l <;> rfl

@[simp] theorem setLine_env (l : Line) (v : Bool) : (s.setLine l v).env = s.env := by cases l <;> rfl

@[simp] theorem level_setLine_same (l : Line) (v : Bool) : (s.setLine l v).level l = v := by cases l <;> rfl

theorem level_setLine_other {l m : Line} (v : Bool) (h : m ≠ l) : (s.setLine l v).level m = s.level m := by
  cases l <;> cases m <;> first | rfl | exact absurd rfl h

@[simp] theorem setLine_clk (v : Bool) : s.setLine .clk v = { s with lClk := v } := rfl

@[simp] theorem setLine_cmd (v : Bool) : s.setLine .cmd v = { s with lCmd := v } := rfl

@[simp] theorem setLine_att1 (v : Bool) : s.setLine .att1 v = { s with lAtt1 := v } := rfl

@[simp] theorem setLine_att2 (v : Bool) : s.setLine .att2 v = { s with lAtt2 := v } := rfl

/-! ### State.raise -/

@[simp] theorem raise_cur (e : ErrCause) : (s.raise e).cur = s.cur := by cases e <;> rfl

@[simp] theorem raise_prev (e : ErrCause) : (s.raise e).prev = s.prev := by cases e <;> rfl

@[simp] theorem raise_mot1 (e : ErrCause) : (s.raise e).mot1 = s.mot1 := by cases e <;> rfl

@[simp] theorem raise_mot2 (e : ErrCause) : (s.raise e).mot2 = s.mot2 := by cases e <;> rfl

@[simp] theorem raise_cfg (e : ErrCause) : (s.raise e).cfg = s.cfg := by cases e <;> rfl

@[simp] theorem raise_tp (e : ErrCause) : (s.raise e).tp = s.tp := by cases e <;> rfl

@[simp] theorem raise_resp (e : ErrCause) : (s.raise e).resp = s.resp := by cases e <;> rfl

@[simp] theorem raise_cbuf (e : ErrCause) : (s.raise e).cbuf = s.cbuf := by cases e <;> rfl

@[simp] theorem raise_txsr (e : ErrCause) : (s.raise e).txsr = s.txsr := by cases e <;> rfl

@[simp] theorem raise_rxsr (e : ErrCause) : (s.raise e).rxsr = s.rxsr := by cases e <;> rfl

@[simp] theorem raise_opr (e : ErrCause) : (s.raise e).opr = s.opr := by cases e <;> rfl

@[simp] theorem raise_padr (e : ErrCause) : (s.raise e).padr = s.padr := by cases e <;> rfl

@[simp] theorem raise_ar (e : ErrCause) : (s.raise e).ar = s.ar := by cases e <;> rfl

@[simp] theorem raise_br (e : ErrCause) : (s.raise e).br = s.br := by cases e <;> rfl

@[simp] theorem raise_seq (e : ErrCause) : (s.raise e).seq = s.seq := by cases e <;> rfl

@[simp] theorem raise_lClk (e : ErrCause) : (s.raise e).lClk = s.lClk := by cases e <;> rfl

@[simp] theorem raise_lCmd (e : ErrCause) : (s.raise e).lCmd = s.lCmd := by cases e <;> rfl

@[simp] theorem raise_lAtt1 (e : ErrCause) : (s.raise e).lAtt1 = s.lAtt1 := by cases e <;> rfl

@[simp] theorem raise_lAtt2 (e : ErrCause) : (s.raise e).lAtt2 = s.lAtt2 := by cases e <;> rfl

@[simp] theorem raise_done (e : ErrCause) : (s.raise e).done = s.done := by cases e <;> rfl

@[simp] theorem raise_env (e : ErrCause) : (s.raise e).env = s.env := by cases e <;> rfl

@[simp] theorem raise_errCfg : (s.raise .errCfg).err = { s.err with errCfg := true } := rfl

@[simp] theorem raise_errOp : (s.raise .errOp).err = { s.err with errOp := true } := rfl

@[simp] theorem raise_errOvr : (s.raise .errOvr).err = { s.err with errOvr := true } := rfl

@[simp] theorem raise_busy (e : ErrCause) : (s.raise e).busy = s.busy := by cases e <;> rfl

/-! ### State.latch -/

@[simp] theorem latch_cur (op : TxnOp) (p : Pad) (a b : Byte) : (s.latch op p a b).cur = s.cur := rfl

@[simp] theorem latch_prev (op : TxnOp) (p : Pad) (a b : Byte) : (s.latch op p a b).prev = s.prev := rfl

@[simp] theorem latch_mot1 (op : TxnOp) (p : Pad) (a b : Byte) : (s.latch op p a b).mot1 = s.mot1 := rfl

@[simp] theorem latch_mot2 (op : TxnOp) (p : Pad) (a b : Byte) : (s.latch op p a b).mot2 = s.mot2 := rfl

@[simp] theorem latch_cfg (op : TxnOp) (p : Pad) (a b : Byte) : (s.latch op p a b).cfg = s.cfg := rfl

@[simp] theorem latch_tp (op : TxnOp) (p : Pad) (a b : Byte) : (s.latch op p a b).tp = s.tp := rfl

@[simp] theorem latch_err (op : TxnOp) (p : Pad) (a b : Byte) : (s.latch op p a b).err = s.err := rfl

@[simp] theorem latch_resp (op : TxnOp) (p : Pad) (a b : Byte) : (s.latch op p a b).resp = s.resp := rfl

@[simp] theorem latch_cbuf (op : TxnOp) (p : Pad) (a b : Byte) : (s.latch op p a b).cbuf = s.cbuf := rfl

@[simp] theorem latch_txsr (op : TxnOp) (p : Pad) (a b : Byte) : (s.latch op p a b).txsr = s.txsr := rfl

@[simp] theorem latch_rxsr (op : TxnOp) (p : Pad) (a b : Byte) : (s.latch op p a b).rxsr = s.rxsr := rfl

@[simp] theorem latch_opr (op : TxnOp) (p : Pad) (a b : Byte) : (s.latch op p a b).opr = op.code := rfl

@[simp] theorem latch_padr (op : TxnOp) (p : Pad) (a b : Byte) : (s.latch op p a b).padr = p := rfl

@[simp] theorem latch_ar (op : TxnOp) (p : Pad) (a b : Byte) : (s.latch op p a b).ar = a := rfl

@[simp] theorem latch_br (op : TxnOp) (p : Pad) (a b : Byte) : (s.latch op p a b).br = b := rfl

@[simp] theorem latch_seq (op : TxnOp) (p : Pad) (a b : Byte) : (s.latch op p a b).seq = s.seq := rfl

@[simp] theorem latch_lClk (op : TxnOp) (p : Pad) (a b : Byte) : (s.latch op p a b).lClk = s.lClk := rfl

@[simp] theorem latch_lCmd (op : TxnOp) (p : Pad) (a b : Byte) : (s.latch op p a b).lCmd = s.lCmd := rfl

@[simp] theorem latch_lAtt1 (op : TxnOp) (p : Pad) (a b : Byte) : (s.latch op p a b).lAtt1 = s.lAtt1 := rfl

@[simp] theorem latch_lAtt2 (op : TxnOp) (p : Pad) (a b : Byte) : (s.latch op p a b).lAtt2 = s.lAtt2 := rfl

@[simp] theorem latch_done (op : TxnOp) (p : Pad) (a b : Byte) : (s.latch op p a b).done = s.done := rfl

@[simp] theorem latch_env (op : TxnOp) (p : Pad) (a b : Byte) : (s.latch op p a b).env = s.env := rfl

/-! ### State.report, State.reportFree -/

@[simp] theorem report_cur (v : Byte) : (s.report v).cur = s.cur := rfl

@[simp] theorem reportFree_cur : s.reportFree.cur = s.cur := rfl

@[simp] theorem report_prev (v : Byte) : (s.report v).prev = s.prev := rfl

@[simp] theorem reportFree_prev : s.reportFree.prev = s.prev := rfl

@[simp] theorem report_mot1 (v : Byte) : (s.report v).mot1 = s.mot1 := rfl

@[simp] theorem reportFree_mot1 : s.reportFree.mot1 = s.mot1 := rfl

@[simp] theorem report_mot2 (v : Byte) : (s.report v).mot2 = s.mot2 := rfl

@[simp] theorem reportFree_mot2 : s.reportFree.mot2 = s.mot2 := rfl

@[simp] theorem report_cfg (v : Byte) : (s.report v).cfg = s.cfg := rfl

@[simp] theorem reportFree_cfg : s.reportFree.cfg = s.cfg := rfl

@[simp] theorem report_tp (v : Byte) : (s.report v).tp = s.tp := rfl

@[simp] theorem reportFree_tp : s.reportFree.tp = s.tp := rfl

@[simp] theorem report_err (v : Byte) : (s.report v).err = s.err := rfl

@[simp] theorem reportFree_err : s.reportFree.err = s.err := rfl

@[simp] theorem report_resp (v : Byte) : (s.report v).resp = s.resp := rfl

@[simp] theorem reportFree_resp : s.reportFree.resp = s.resp := rfl

@[simp] theorem report_cbuf (v : Byte) : (s.report v).cbuf = s.cbuf := rfl

@[simp] theorem reportFree_cbuf : s.reportFree.cbuf = s.cbuf := rfl

@[simp] theorem report_txsr (v : Byte) : (s.report v).txsr = s.txsr := rfl

@[simp] theorem reportFree_txsr : s.reportFree.txsr = s.txsr := rfl

@[simp] theorem report_rxsr (v : Byte) : (s.report v).rxsr = s.rxsr := rfl

@[simp] theorem reportFree_rxsr : s.reportFree.rxsr = s.rxsr := rfl

@[simp] theorem report_opr (v : Byte) : (s.report v).opr = s.opr := rfl

@[simp] theorem reportFree_opr : s.reportFree.opr = s.opr := rfl

@[simp] theorem report_padr (v : Byte) : (s.report v).padr = s.padr := rfl

@[simp] theorem reportFree_padr : s.reportFree.padr = s.padr := rfl

@[simp] theorem report_ar (v : Byte) : (s.report v).ar = s.ar := rfl

@[simp] theorem reportFree_ar : s.reportFree.ar = s.ar := rfl

@[simp] theorem report_br (v : Byte) : (s.report v).br = s.br := rfl

@[simp] theorem reportFree_br : s.reportFree.br = s.br := rfl

@[simp] theorem report_seq (v : Byte) : (s.report v).seq = s.seq := rfl

@[simp] theorem reportFree_seq : s.reportFree.seq = s.seq := rfl

@[simp] theorem report_lClk (v : Byte) : (s.report v).lClk = s.lClk := rfl

@[simp] theorem reportFree_lClk : s.reportFree.lClk = s.lClk := rfl

@[simp] theorem report_lCmd (v : Byte) : (s.report v).lCmd = s.lCmd := rfl

@[simp] theorem reportFree_lCmd : s.reportFree.lCmd = s.lCmd := rfl

@[simp] theorem report_lAtt1 (v : Byte) : (s.report v).lAtt1 = s.lAtt1 := rfl

@[simp] theorem reportFree_lAtt1 : s.reportFree.lAtt1 = s.lAtt1 := rfl

@[simp] theorem report_lAtt2 (v : Byte) : (s.report v).lAtt2 = s.lAtt2 := rfl

@[simp] theorem reportFree_lAtt2 : s.reportFree.lAtt2 = s.lAtt2 := rfl

@[simp] theorem report_done (v : Byte) : (s.report v).done = s.done := rfl

@[simp] theorem reportFree_done : s.reportFree.done = s.done := rfl

@[simp] theorem report_env (v : Byte) : (s.report v).env = { s.env with qResult := v } := rfl

@[simp] theorem report_report (v w : Byte) : (s.report v).report w = s.report w := rfl

end Sys2Proof.Machine
end

