-- ==== Sys2Proof/Laws/Ops.lean ====
section
/-! SUPPORT. For each shared operation, once, what it can do. Proofs about instructions and steps cite these lemmas and
do not unfold the operations. -/

namespace Sys2Proof.Machine

/-! ### Sequencing of outcomes -/

@[simp] theorem andThen_next (s : State) (f : State → Result) : andThen (.next s) f = f s := rfl

@[simp] theorem andThen_fault (r : Fault) (f : State → Result) : andThen (.fault r) f = .fault r := rfl

@[simp] theorem andThen_refused (r : Refusal) (f : State → Result) : andThen (.refused r) f = .refused r := rfl

theorem andThen_assoc (o : Result) (f g : State → Result) :
    andThen (andThen o f) g = andThen o fun s => andThen (f s) g := by cases o <;> rfl

@[simp] theorem andThen_pure (o : Result) : andThen o .next = o := by cases o <;> rfl

/-- From a next state of two actions, the state between them. -/
theorem andThen_eq_next {o : Result} {f : State → Result} {t : State} (h : andThen o f = .next t) :
    ∃ s, o = .next s ∧ f s = .next t := by
  cases o with
  | next s => exact ⟨s, rfl, h⟩
  | fault r => cases h
  | refused r => cases h

/-! ### Busy -/

@[simp] theorem busy_eq_false (s : State) : s.busy = false ↔ s.seq.ph = .idle := by simp [State.busy]

@[simp] theorem busy_eq_true (s : State) : s.busy = true ↔ s.seq.ph ≠ .idle := by simp [State.busy]

/-! ### The byte stores -/

@[simp] theorem read_write_same (s : State) (a : Addr) (v : Byte) : (s.write a v).read a = v := by
  cases a <;> simp [State.write, State.read]

/-- A write leaves every other byte of every store alone. -/
theorem read_write_other (s : State) {a d : Addr} (v : Byte) (h : d ≠ a) : (s.write a v).read d = s.read d := by
  cases a <;> cases d <;> simp [State.write, State.read] <;> grind [PerPad.get_set]

/-- The bytes read depend on the four stores alone. -/
theorem read_congr {s t : State} (hc : t.cur = s.cur) (hp : t.prev = s.prev) (hr : t.resp = s.resp)
    (hb : t.cbuf = s.cbuf) (d : Addr) : t.read d = s.read d := by
  cases d <;> simp [State.read, hc, hp, hr, hb]

/-! ### Operation codes -/

@[simp] theorem TxnOp.ofCode_code (op : TxnOp) : TxnOp.ofCode op.code = some op := by cases op <;> rfl

theorem TxnOp.ofCode_eq_some {c : BitVec 3} {op : TxnOp} (h : TxnOp.ofCode c = some op) : c = op.code := by
  revert c op
  decide +revert

/-! ### Starting a transaction -/

/-- `beginTransaction` in one record: it stops where the attention line is absent, else it loads the command, drives
the pad's attention line low and enters `ATT_WAIT`. -/
theorem beginTransaction_eq (cmd : Frame) (s : State) :
    beginTransaction cmd s =
      if s.padr = .pad2 ∧ s.cfg.hasAtt2 = false then .fault .noAttentionLine
      else .next { s with
        cbuf := cmd
        seq := { s.seq with ph := .attWait, w := s.tp.tAtt }
        lAtt1 := if s.padr = .pad1 then false else s.lAtt1
        lAtt2 := if s.padr = .pad2 then false else s.lAtt2 } := by
  unfold beginTransaction
  cases h : s.padr <;> simp [State.setAtt, attLine, State.setLine, h]

theorem beginTransaction_ok {cmd : Frame} {s : State} (h : s.padr = .pad2 → s.cfg.hasAtt2 = true) :
    beginTransaction cmd s = .next { s with
        cbuf := cmd
        seq := { s.seq with ph := .attWait, w := s.tp.tAtt }
        lAtt1 := if s.padr = .pad1 then false else s.lAtt1
        lAtt2 := if s.padr = .pad2 then false else s.lAtt2 } := by
  rw [beginTransaction_eq, if_neg]
  rintro ⟨hp, hf⟩
  simp [h hp] at hf

/-- The wire command of transaction `t` of an operation (spec/70_reset_and_hazards.md R241, `START_TXN`). -/
def commandOf (op : TxnOp) (t : Fin 3) (s : State) : Frame :=
  match op, t with
  | .poll, _ => pollCmdBytes (s.mot1.get s.padr) (s.mot2.get s.padr)
  | .setMode, 0 => enterCfgBytes
  | .setMode, 1 => setModeCmdBytes s.ar s.br
  | .setMode, 2 => exitCfgBytes
  | .enMotors, 0 => enterCfgBytes
  | .enMotors, 1 => enMotorsCmdBytes s.ar s.br
  | .enMotors, 2 => exitCfgBytes

/-- `START_TXN(t)` for an operation with that many transactions is `beginTransaction` of its command. -/
theorem startTxn_eq {op : TxnOp} {t : Fin 3} {s : State} (hop : TxnOp.ofCode s.opr = some op) (ht : t ≤ op.last) :
    startTxn t s = beginTransaction (commandOf op t s) { s with seq := { s.seq with t := t } } := by
  unfold startTxn
  rw [hop]
  cases op <;> fin_cases t <;> first | rfl | simp [TxnOp.last] at ht

/-- The operations that have no transaction `t` stop. -/
theorem startTxn_fault {t : Fin 3} {s : State} (h : ∀ op, TxnOp.ofCode s.opr = some op → ¬ t ≤ op.last) :
    startTxn t s = .fault .noTransition := by
  unfold startTxn
  rcases hop : TxnOp.ofCode s.opr with _ | op
  · simp
  · have := h op hop
    cases op <;> fin_cases t <;> first | rfl | simp [TxnOp.last] at this

/-- What `START_TXN(t)` can do. -/
theorem startTxn_cases (t : Fin 3) (s : State) :
    (∃ r, startTxn t s = .fault r) ∨
    ∃ op, TxnOp.ofCode s.opr = some op ∧ t ≤ op.last ∧ (s.padr = .pad2 → s.cfg.hasAtt2 = true) ∧
      startTxn t s = .next { s with
        cbuf := commandOf op t s
        seq := { s.seq with ph := .attWait, t := t, w := s.tp.tAtt }
        lAtt1 := if s.padr = .pad1 then false else s.lAtt1
        lAtt2 := if s.padr = .pad2 then false else s.lAtt2 } := by
  by_cases h : ∃ op, TxnOp.ofCode s.opr = some op ∧ t ≤ op.last
  · obtain ⟨op, hop, ht⟩ := h
    rw [startTxn_eq hop ht, beginTransaction_eq]
    split
    · exact .inl ⟨_, rfl⟩
    · rename_i hn
      refine .inr ⟨op, hop, ht, fun hp => ?_, rfl⟩
      by_contra hf
      exact hn ⟨hp, by simpa using hf⟩
  · exact .inl ⟨_, startTxn_fault fun op hop ht => h ⟨op, hop, ht⟩⟩

/-! ### The acceptance step -/

theorem accept_busy {op : TxnOp} {p : Pad} {a b : Byte} {start : State → Result} {s : State}
    (h : s.seq.ph ≠ .idle) : accept op p a b start s = .next (s.raise .errOvr) := by
  simp [accept, State.busy, h]

theorem accept_noLine {op : TxnOp} {a b : Byte} {start : State → Result} {s : State}
    (h : s.seq.ph = .idle) (h2 : s.cfg.hasAtt2 = false) :
    accept op .pad2 a b start s = .next (s.raise .errCfg) := by
  simp [accept, State.busy, h, h2]

theorem accept_ok {op : TxnOp} {p : Pad} {a b : Byte} {start : State → Result} {s : State}
    (h : s.seq.ph = .idle) (h2 : p = .pad2 → s.cfg.hasAtt2 = true) :
    accept op p a b start s = start (s.latch op p a b) := by
  have : ¬ (p = .pad2 ∧ s.cfg.hasAtt2 = false) := by
    rintro ⟨hp, hf⟩
    simp [h2 hp] at hf
  simp [accept, State.busy, h, this]

/-! ### Queries -/

theorem answer_idle {v : Byte} {s : State} (h : s.seq.ph = .idle) : answer v s = .next (s.report v) := by
  simp [answer, State.busy, h]

theorem answer_busy {v : Byte} {s : State} (h : s.seq.ph ≠ .idle) : answer v s = .next s.reportFree := by
  simp [answer, State.busy, h]

/-! ### The sequencer -/

theorem advance_idle {dat : Bool} {s : State} (h : s.seq.ph = .idle) : advance dat s = .next s := by
  simp [advance, h]

theorem advance_wait {dat : Bool} {s : State} (h : s.seq.ph ≠ .idle) (hw : 1 < s.seq.w) :
    advance dat s = .next { s with seq := { s.seq with w := s.seq.w - 1 } } := by
  simp [advance, h, hw]

theorem advance_end {dat : Bool} {s : State} (h : s.seq.ph ≠ .idle) (hw : s.seq.w = 1) :
    advance dat s = endPhase dat s := by
  simp [advance, h, hw]

/-- What one edge of the sequencer can do. -/
theorem advance_cases {dat : Bool} {s t : State} (h : advance dat s = .next t) :
    (s.seq.ph = .idle ∧ t = s) ∨
    (s.seq.ph ≠ .idle ∧ 1 < s.seq.w ∧ t = { s with seq := { s.seq with w := s.seq.w - 1 } }) ∨
    (s.seq.w = 1 ∧
      ((s.seq.ph = .attWait ∧ t = startByte 0 s) ∨
       (s.seq.ph = .clkLow ∧ t = captureBit dat s) ∨
       (s.seq.ph = .clkHigh ∧ s.seq.k < 7 ∧ t = startBit s) ∨
       (s.seq.ph = .clkHigh ∧ ¬ s.seq.k < 7 ∧ t = endByte s) ∨
       (s.seq.ph = .ackWait ∧ s.seq.i < 8 ∧ t = startByte (s.seq.i + 1) s) ∨
       (s.seq.ph = .ackWait ∧ ¬ s.seq.i < 8 ∧ t = releaseAttention s) ∨
       (s.seq.ph = .interWait ∧ ∃ op, TxnOp.ofCode s.opr = some op ∧
         ((s.seq.t < op.last ∧ startTxn (s.seq.t + 1) s = .next t) ∨
          (s.seq.t = op.last ∧ t = endOperation op s))))) := by
  unfold advance at h
  split at h
  · next hi => exact .inl ⟨hi, by simpa using h.symm⟩
  split at h
  · next hi hw => exact .inr (.inl ⟨hi, hw, by simpa using h.symm⟩)
  split at h
  swap
  · cases h
  next hi _ hw =>
  refine .inr (.inr ⟨hw, ?_⟩)
  unfold endPhase at h
  split at h
  · next hp => exact absurd hp hi
  · next hp => exact .inl ⟨hp, by simpa using h.symm⟩
  · next hp => exact .inr (.inl ⟨hp, by simpa using h.symm⟩)
  · next hp =>
    split at h
    · next hk => exact .inr (.inr (.inl ⟨hp, hk, by simpa using h.symm⟩))
    · next hk => exact .inr (.inr (.inr (.inl ⟨hp, hk, by simpa using h.symm⟩)))
  · next hp =>
    split at h
    · next hk => exact .inr (.inr (.inr (.inr (.inl ⟨hp, hk, by simpa using h.symm⟩))))
    · next hk => exact .inr (.inr (.inr (.inr (.inr (.inl ⟨hp, hk, by simpa using h.symm⟩)))))
  · next hp =>
    refine .inr (.inr (.inr (.inr (.inr (.inr ⟨hp, ?_⟩)))))
    unfold endTransaction at h
    split at h
    · cases h
    · next op hop =>
      refine ⟨op, hop, ?_⟩
      split at h
      · next ht => exact .inl ⟨ht, h⟩
      split at h
      · next ht => exact .inr ⟨ht, by simpa using h.symm⟩
      · cases h

/-- The registers no edge of the sequencer writes. -/
theorem advance_keeps {dat : Bool} {s t : State} (h : advance dat s = .next t) :
    t.mot1 = s.mot1 ∧ t.mot2 = s.mot2 ∧ t.cfg = s.cfg ∧ t.tp = s.tp ∧ t.err = s.err ∧ t.opr = s.opr ∧
    t.padr = s.padr ∧ t.ar = s.ar ∧ t.br = s.br ∧ t.env = s.env := by
  rcases advance_cases h with ⟨-, rfl⟩ | ⟨-, -, rfl⟩ | ⟨-, h⟩
  · simp
  · simp
  rcases h with ⟨-, rfl⟩ | ⟨-, rfl⟩ | ⟨-, -, rfl⟩ | ⟨-, -, rfl⟩ | ⟨-, -, rfl⟩ | ⟨-, -, rfl⟩ | ⟨-, op, hop, h⟩
  · simp [startByte]
  · simp [captureBit]
  · simp [startBit]
  · simp [endByte, State.write]
  · simp [startByte]
  · simp [releaseAttention, State.setAtt]
  · rcases h with ⟨-, h⟩ | ⟨-, rfl⟩
    · rcases startTxn_cases (s.seq.t + 1) s with ⟨r, hr⟩ | ⟨op', -, -, -, hn⟩
      · rw [hr] at h; cases h
      · rw [hn] at h; cases h; simp
    · cases op <;> simp [endOperation, storeResponse]

end Sys2Proof.Machine
end

