-- ==== Sys2Proof/Laws/Edge.lean ====
section
/-! SUPPORT. What one clock edge and one step can do, said once: every invariant of the machine is a case analysis of
`clockEdge_cases` or `step_cases`. -/

namespace Sys2Proof.Machine

/-! ### The host words -/

/-- The four host words that decode, by operation code. -/
theorem decodeHostCmd_cases (hc : BitVec 20) :
    (hostOp hc = 1 ∧ decodeHostCmd hc = .ok (.poll (hostPad hc) (hostA hc) (hostB hc))) ∨
    (hostOp hc = 2 ∧ decodeHostCmd hc = .ok (.setMode (hostPad hc) (hostA hc) (hostB hc))) ∨
    (hostOp hc = 3 ∧ decodeHostCmd hc = .ok (.enMotors (hostPad hc) (hostA hc) (hostB hc))) ∨
    (hostOp hc = 4 ∧ decodeHostCmd hc = .ok (.setMotorLevels (hostPad hc) (hostA hc) (hostB hc))) ∨
    ((hostOp hc = 0 ∨ hostOp hc = 5 ∨ hostOp hc = 6 ∨ hostOp hc = 7) ∧
      decodeHostCmd hc = .error (.reservedHostOp (hostOp hc))) := by
  unfold decodeHostCmd
  split <;> simp_all
  next h1 h2 h3 h4 =>
    revert h1 h2 h3 h4
    generalize hostOp hc = x
    revert x
    decide

/-- The instruction that starts an operation. -/
def startInstr : TxnOp → Pad → Byte → Byte → Instr
  | .poll => .poll
  | .setMode => .setMode
  | .enMotors => .enMotors

/-- The state in which an accepted operation begins: operands latched, and for POLL `PREV[p] <- CUR[p]`. -/
def accepted (op : TxnOp) (p : Pad) (a b : Byte) (s : State) : State :=
  match op with
  | .poll => savePrevious p (s.latch .poll p a b)
  | .setMode => s.latch .setMode p a b
  | .enMotors => s.latch .enMotors p a b

/-- The state after the acceptance of an operation that starts transactions. -/
def started (op : TxnOp) (p : Pad) (a b : Byte) (s : State) : State :=
  { accepted op p a b s with
    cbuf := commandOf op 0 (accepted op p a b s)
    seq := { s.seq with ph := .attWait, t := 0, w := s.tp.tAtt }
    lAtt1 := if p = .pad1 then false else s.lAtt1
    lAtt2 := if p = .pad2 then false else s.lAtt2 }

theorem exec_startInstr (op : TxnOp) (p : Pad) (a b : Byte) (s : State) :
    exec (startInstr op p a b) s = accept op p a b (fun _ => startTxn 0 (accepted op p a b s)) s := by
  cases op <;> rfl

theorem exec_start_ok {op : TxnOp} {p : Pad} {a b : Byte} {s : State} (h : s.seq.ph = .idle)
    (h2 : p = .pad2 → s.cfg.hasAtt2 = true) :
    exec (startInstr op p a b) s = .next (started op p a b s) := by
  rw [exec_startInstr, accept_ok h h2, startTxn_eq (op := op), beginTransaction_ok]
  · cases op <;> rfl
  · cases op <;> exact h2
  · cases op <;> rfl
  · cases op <;> decide

/-- What an offered word can do; it always gives a next state. -/
theorem offer_cases (hc : BitVec 20) (s : State) :
    (s.seq.ph ≠ .idle ∧ offer hc s = .next (s.raise .errOvr)) ∨
    (s.seq.ph = .idle ∧
      ((offer hc s = .next (s.raise .errOp)) ∨
       (s.cfg.hasAtt2 = false ∧ hostPad hc = .pad2 ∧ offer hc s = .next (s.raise .errCfg)) ∨
       (decodeHostCmd hc = .ok (.setMotorLevels (hostPad hc) (hostA hc) (hostB hc)) ∧
        offer hc s = .next { s with mot1 := s.mot1.set (hostPad hc) (hostA hc),
                                    mot2 := s.mot2.set (hostPad hc) (hostB hc) }) ∨
       (∃ op, (hostPad hc = .pad2 → s.cfg.hasAtt2 = true) ∧
        decodeHostCmd hc = .ok (startInstr op (hostPad hc) (hostA hc) (hostB hc)) ∧
        offer hc s = .next (started op (hostPad hc) (hostA hc) (hostB hc) s)))) := by
  by_cases hi : s.seq.ph = .idle
  · refine .inr ⟨hi, ?_⟩
    have start (op : TxnOp) (hd : decodeHostCmd hc = .ok (startInstr op (hostPad hc) (hostA hc) (hostB hc))) :
        (s.cfg.hasAtt2 = false ∧ hostPad hc = .pad2 ∧ offer hc s = .next (s.raise .errCfg)) ∨
        ((hostPad hc = .pad2 → s.cfg.hasAtt2 = true) ∧
          offer hc s = .next (started op (hostPad hc) (hostA hc) (hostB hc) s)) := by
      by_cases h2 : hostPad hc = .pad2 → s.cfg.hasAtt2 = true
      · exact .inr ⟨h2, by simp [offer, hd, exec_start_ok hi h2]⟩
      · obtain ⟨hp, hf⟩ := Classical.not_imp.mp h2
        have hf : s.cfg.hasAtt2 = false := by simpa using hf
        exact .inl ⟨hf, hp, by simp [offer, hd, exec_startInstr, hp, accept_noLine hi hf]⟩
    rcases decodeHostCmd_cases hc with ⟨-, hd⟩ | ⟨-, hd⟩ | ⟨-, hd⟩ | ⟨-, hd⟩ | ⟨-, hd⟩
    · rcases start .poll hd with h | h
      · exact .inr (.inl h)
      · exact .inr (.inr (.inr ⟨.poll, h.1, hd, h.2⟩))
    · rcases start .setMode hd with h | h
      · exact .inr (.inl h)
      · exact .inr (.inr (.inr ⟨.setMode, h.1, hd, h.2⟩))
    · rcases start .enMotors hd with h | h
      · exact .inr (.inl h)
      · exact .inr (.inr (.inr ⟨.enMotors, h.1, hd, h.2⟩))
    · exact .inr (.inr (.inl ⟨hd, by simp [offer, hd, exec, execSetMotorLevels, State.busy, hi]⟩))
    · exact .inl (by simp [offer, hd, acceptReserved, State.busy, hi])
  · refine .inl ⟨hi, ?_⟩
    rcases decodeHostCmd_cases hc with ⟨-, hd⟩ | ⟨-, hd⟩ | ⟨-, hd⟩ | ⟨-, hd⟩ | ⟨-, hd⟩ <;>
      simp [offer, hd, exec, execPoll, execSetMode, execEnMotors, execSetMotorLevels, acceptReserved,
        accept_busy hi, State.busy, hi]

/-! ### One clock edge -/

theorem clockEdge_reset {inp : EdgeInputs} (s : State) (h : inp.rst = true) :
    clockEdge inp s = .next (State.resetWith inp.straps s.env) := by
  simp [clockEdge, h]

/-- An edge of an idle engine does what is offered and nothing else. -/
theorem clockEdge_idle {inp : EdgeInputs} {s : State} (h : inp.rst = false) (hi : s.seq.ph = .idle) :
    clockEdge inp s =
      if inp.cmdValid then offer inp.hc { s with done := false } else .next { s with done := false } := by
  simp [clockEdge, h, State.busy, hi]

/-- An edge of a busy engine advances the sequencer, and sets `ERR_OVR` where something is offered. -/
theorem clockEdge_busy {inp : EdgeInputs} {s : State} (h : inp.rst = false) (hi : s.seq.ph ≠ .idle) :
    clockEdge inp s = advance inp.dat
      { s with done := false, err := { s.err with errOvr := s.err.errOvr || inp.cmdValid } } := by
  have hb : s.busy = true := by simp [hi]
  cases hv : inp.cmdValid
  · simp [clockEdge, h, hb, hv]
  · rcases offer_cases inp.hc { s with done := false } with ⟨-, ho⟩ | ⟨hi', -⟩
    · simp [clockEdge, h, hb, hv, ho, State.raise]
    · exact absurd hi' hi

/-- What a clock edge without reset can do. -/
theorem clockEdge_cases {inp : EdgeInputs} {s t : State} (hr : inp.rst = false) (h : clockEdge inp s = .next t) :
    (s.seq.ph = .idle ∧
      (t = { s with done := false } ∨
       (inp.cmdValid = true ∧
         (t = { s with done := false, err := { s.err with errOp := true } } ∨
          t = { s with done := false, err := { s.err with errCfg := true } } ∨
          (decodeHostCmd inp.hc = .ok (.setMotorLevels (hostPad inp.hc) (hostA inp.hc) (hostB inp.hc)) ∧
           t = { s with done := false, mot1 := s.mot1.set (hostPad inp.hc) (hostA inp.hc),
                        mot2 := s.mot2.set (hostPad inp.hc) (hostB inp.hc) }) ∨
          (∃ op, (hostPad inp.hc = .pad2 → s.cfg.hasAtt2 = true) ∧
            t = started op (hostPad inp.hc) (hostA inp.hc) (hostB inp.hc) { s with done := false }))))) ∨
    (s.seq.ph ≠ .idle ∧ advance inp.dat
      { s with done := false, err := { s.err with errOvr := s.err.errOvr || inp.cmdValid } } = .next t) := by
  by_cases hi : s.seq.ph = .idle
  · refine .inl ⟨hi, ?_⟩
    rw [clockEdge_idle hr hi] at h
    cases hv : inp.cmdValid <;> simp only [hv, Bool.false_eq_true, if_false, if_true] at h
    · exact .inl (by simpa using h.symm)
    · refine .inr ⟨rfl, ?_⟩
      rcases offer_cases inp.hc { s with done := false } with ⟨hb, -⟩ | ⟨-, ho | ⟨-, -, ho⟩ | ⟨hd, ho⟩ | ⟨op, h2, -, ho⟩⟩
      · exact absurd hi hb
      all_goals rw [ho] at h; injection h with h; subst h
      · exact .inl rfl
      · exact .inr (.inl rfl)
      · exact .inr (.inr (.inl ⟨hd, rfl⟩))
      · exact .inr (.inr (.inr ⟨op, h2, rfl⟩))
  · exact .inr ⟨hi, by rw [← clockEdge_busy hr hi]; exact h⟩

/-! ### Queries -/

/-- A query instruction only reports a value on the port, and always gives a next state. -/
theorem exec_query {i : Instr} {qw : BitVec 8} (h : encode i = .query qw) (s : State) :
    (∃ v, exec i s = .next (s.report v)) ∨ exec i s = .next s.reportFree := by
  have ans (v : Byte) : (∃ w, answer v s = .next (s.report w)) ∨ answer v s = .next s.reportFree := by
    by_cases hi : s.seq.ph = .idle
    · exact .inl ⟨v, answer_idle hi⟩
    · exact .inr (answer_busy hi)
  cases i <;> simp [encode] at h
  case axis p sel =>
    simp only [exec, execAxis]
    split
    · exact ans _
    · exact .inr rfl
  all_goals exact ans _

/-- What a query word decodes to, by query code. -/
theorem decodeQuery_cases (qw : BitVec 8) :
    (queryOp qw = 0 ∧ decodeQuery qw = .ok (.isDown (queryPad qw) (querySel qw))) ∨
    (queryOp qw = 1 ∧ decodeQuery qw = .ok (.pressed (queryPad qw) (querySel qw))) ∨
    (queryOp qw = 2 ∧ decodeQuery qw = .ok (.released (queryPad qw) (querySel qw))) ∨
    (queryOp qw = 3 ∧ (querySel qw).toNat < 4 ∧ decodeQuery qw = .ok (.axis (queryPad qw) (querySel qw))) ∨
    (queryOp qw = 3 ∧ 4 ≤ (querySel qw).toNat ∧ decodeQuery qw = .error (.reservedAxisSelector (querySel qw))) ∨
    (queryOp qw = 4 ∧ decodeQuery qw = .ok (.isAnalog (queryPad qw) (querySel qw))) ∨
    (queryOp qw = 5 ∧ decodeQuery qw = .ok (.isDigital (queryPad qw) (querySel qw))) ∨
    ((queryOp qw = 6 ∨ queryOp qw = 7) ∧ decodeQuery qw = .error (.reservedQueryOp (queryOp qw))) := by
  revert qw
  decide

/-- The instruction a query word decodes to is a query. -/
theorem decodeQuery_isQuery {qw : BitVec 8} {i : Instr} (h : decodeQuery qw = .ok i) : ∃ w, encode i = .query w := by
  rcases decodeQuery_cases qw with ⟨-, hd⟩ | ⟨-, hd⟩ | ⟨-, hd⟩ | ⟨-, -, hd⟩ | ⟨-, -, hd⟩ | ⟨-, hd⟩ | ⟨-, hd⟩ | ⟨-, hd⟩
  all_goals rw [hd] at h; cases h
  all_goals exact ⟨_, rfl⟩

/-- Reading the query port only reports a value, whatever the word is. -/
theorem readQuery_cases (qw : BitVec 8) (s : State) :
    (∃ v, readQuery qw s = .next (s.report v)) ∨ readQuery qw s = .next s.reportFree := by
  unfold readQuery
  split
  · next i h =>
    obtain ⟨w, hw⟩ := decodeQuery_isQuery h
    exact exec_query hw s
  · exact .inr rfl

/-! ### One step -/

/-- What a step can do: reset, an edge without reset, or a reading of the query port, which changes only `env`. -/
theorem step_cases {s t : State} (h : step s = .next t) :
    (∃ inp rest, s.env.stim = .edge inp :: rest ∧ inp.rst = true ∧
      t = State.resetWith inp.straps { s.env with stim := rest }) ∨
    (∃ inp env, inp.rst = false ∧ clockEdge inp { s with env := env } = .next t ∧
      (s.env.stim = [] ∧ inp.cmdValid = false ∨ ∃ rest, s.env.stim = .edge inp :: rest)) ∨
    (∃ env, t = { s with env := env } ∧ ∃ qw rest, s.env.stim = .query qw :: rest) := by
  unfold step at h
  split at h
  · next hs => exact .inr (.inl ⟨_, _, rfl, by simpa [State.takeStimulus, hs] using h, .inl ⟨hs, rfl⟩⟩)
  · next inp rest hs =>
    simp only [State.takeStimulus, hs] at h
    cases hr : inp.rst
    · exact .inr (.inl ⟨inp, _, hr, h, .inr ⟨rest, hs⟩⟩)
    · rw [clockEdge_reset _ hr] at h
      injection h with h
      exact .inl ⟨inp, rest, hs, hr, h.symm⟩
  · next qw rest hs =>
    refine .inr (.inr ?_)
    simp only [State.takeStimulus, hs] at h
    rcases readQuery_cases qw { s with env := { s.env with stim := rest } } with ⟨v, hv⟩ | hv
    all_goals rw [hv] at h; injection h with h; exact ⟨_, h.symm, qw, rest, hs⟩

end Sys2Proof.Machine
end

