-- ==== Sys2Proof/Laws/Aside.lean ====
section
/-! SUPPORT. What the sequencer and a clock edge do not read: the error flags, `HAS_ACK` and the model's own fields.
Changing one of them before an edge is changing it after. -/

namespace Sys2Proof.Machine

/-- The state with its flags, `HAS_ACK` and environment replaced. -/
def aside (e : ErrFlags) (k : Bool) (v : Env) (s : State) : State :=
  { s with err := e, cfg := { s.cfg with hasAck := k }, env := v }

theorem beginTransaction_aside (e k v) (cmd : Frame) (s : State) :
    beginTransaction cmd (aside e k v s) = andThen (beginTransaction cmd s) fun t => .next (aside e k v t) := by
  rw [beginTransaction_eq, beginTransaction_eq]
  by_cases h : s.padr = .pad2 ∧ s.cfg.hasAtt2 = false
  · rw [if_pos h, if_pos (show (aside e k v s).padr = .pad2 ∧ (aside e k v s).cfg.hasAtt2 = false from h)]; rfl
  · rw [if_neg h, if_neg (show ¬ ((aside e k v s).padr = .pad2 ∧ (aside e k v s).cfg.hasAtt2 = false) from h)]; rfl

theorem startTxn_aside (e k v) (t : Fin 3) (s : State) :
    startTxn t (aside e k v s) = andThen (startTxn t s) fun t => .next (aside e k v t) := by
  by_cases h : ∃ op, TxnOp.ofCode s.opr = some op ∧ t ≤ op.last
  · obtain ⟨op, hop, ht⟩ := h
    rw [startTxn_eq hop ht, startTxn_eq (s := aside e k v s) hop ht]
    rw [show commandOf op t (aside e k v s) = commandOf op t s by cases op <;> fin_cases t <;> rfl]
    exact beginTransaction_aside e k v _ { s with seq := { s.seq with t := t } }
  · rw [startTxn_fault fun op hop ht => h ⟨op, hop, ht⟩,
      startTxn_fault (s := aside e k v s) fun op hop ht => h ⟨op, hop, ht⟩]
    rfl

theorem advance_aside (e k v) (dat : Bool) (s : State) :
    advance dat (aside e k v s) = andThen (advance dat s) fun t => .next (aside e k v t) := by
  unfold advance
  simp only [show (aside e k v s).seq = s.seq from rfl]
  split
  · rfl
  split
  · rfl
  split
  swap
  · rfl
  unfold endPhase
  simp only [show (aside e k v s).seq = s.seq from rfl]
  split
  · rfl
  · rfl
  · rfl
  · split <;> rfl
  · split
    · rfl
    · cases h : s.padr <;> simp [releaseAttention, State.setAtt, attLine, aside, h]
  · unfold endTransaction
    simp only [show (aside e k v s).seq = s.seq from rfl, show (aside e k v s).opr = s.opr from rfl]
    split
    · rfl
    · next op _ =>
      split
      · exact startTxn_aside ..
      split
      · cases op <;> rfl
      · rfl

/-- An edge of a busy engine, with what it does not read replaced. -/
theorem busy_aside {inp : EdgeInputs} {s : State} (e k v) (h : inp.rst = false) (hi : s.seq.ph ≠ .idle) :
    clockEdge inp (aside e k v s) = andThen (advance inp.dat { s with done := false }) fun t =>
      .next (aside { e with errOvr := e.errOvr || inp.cmdValid } k v t) := by
  rw [clockEdge_busy h (s := aside e k v s) hi]
  exact advance_aside { e with errOvr := e.errOvr || inp.cmdValid } k v inp.dat { s with done := false }

/-- An offered word reads and writes flags, but neither `HAS_ACK` nor the environment. -/
theorem offer_aside (hc : BitVec 20) (k : Bool) (v : Env) (s : State) :
    offer hc (aside s.err k v s) = andThen (offer hc s) fun t => .next (aside t.err k v t) := by
  by_cases hi : s.seq.ph = .idle
  · have start (op : TxnOp) (p a b) : exec (startInstr op p a b) (aside s.err k v s) =
        andThen (exec (startInstr op p a b) s) fun t => .next (aside t.err k v t) := by
      by_cases h2 : p = .pad2 → s.cfg.hasAtt2 = true
      · rw [exec_start_ok hi h2, exec_start_ok (s := aside s.err k v s) hi h2]
        cases op <;> rfl
      · obtain ⟨rfl, hf⟩ := Classical.not_imp.mp h2
        have hf : s.cfg.hasAtt2 = false := by simpa using hf
        rw [exec_startInstr, exec_startInstr, accept_noLine hi hf, accept_noLine (s := aside s.err k v s) hi hf]
        rfl
    unfold offer
    rcases decodeHostCmd_cases hc with ⟨ho, hd⟩ | ⟨ho, hd⟩ | ⟨ho, hd⟩ | ⟨ho, hd⟩ | ⟨ho, hd⟩
    all_goals rw [hd]
    · exact start .poll _ _ _
    · exact start .setMode _ _ _
    · exact start .enMotors _ _ _
    · simp [exec, execSetMotorLevels, State.busy, hi, aside]
    · simp [acceptReserved, State.busy, hi, aside, State.raise]
  · rcases offer_cases hc s with ⟨_, h⟩ | ⟨h, _⟩
    · rcases offer_cases hc (aside s.err k v s) with ⟨_, h'⟩ | ⟨h', _⟩
      · rw [h, h']; rfl
      · exact absurd h' hi
    · exact absurd h hi

/-- A clock edge without reset reads neither `HAS_ACK` nor the environment. -/
theorem clockEdge_aside (inp : EdgeInputs) (k : Bool) (env : Env) (s : State) (hr : inp.rst = false) :
    clockEdge inp { s with cfg := { s.cfg with hasAck := k }, env := env } =
      andThen (clockEdge inp s) fun t => .next { t with cfg := { t.cfg with hasAck := k }, env := env } := by
  by_cases hi : s.seq.ph = .idle
  · rw [clockEdge_idle (s := s) hr hi,
      clockEdge_idle (s := { s with cfg := { s.cfg with hasAck := k }, env := env }) hr hi]
    split
    · exact offer_aside inp.hc k env { s with done := false }
    · rfl
  · have h1 := busy_aside s.err k env hr hi
    have h2 := busy_aside s.err s.cfg.hasAck s.env hr hi
    refine h1.trans ?_
    have h2 : clockEdge inp s = _ := h2
    rw [h2, andThen_assoc]
    rfl

/-- A clock edge without reset does not read the environment. -/
theorem clockEdge_env (inp : EdgeInputs) (env : Env) (s : State) (hr : inp.rst = false) :
    clockEdge inp { s with env := env } = andThen (clockEdge inp s) fun t => .next { t with env := env } := by
  have h1 := clockEdge_aside inp s.cfg.hasAck env s hr
  refine h1.trans ?_
  cases h : clockEdge inp s with
  | fault r => rfl
  | refused r => rfl
  | next t =>
    have : t.cfg = s.cfg := by
      rcases clockEdge_cases hr h with ⟨_, rfl | ⟨_, rfl | rfl | ⟨_, rfl⟩ | ⟨op, _, rfl⟩⟩⟩ | ⟨_, h⟩
      any_goals rfl
      · cases op <;> rfl
      · exact (advance_keeps h).2.2.1
    simp [this]

end Sys2Proof.Machine
end

