-- ==== Sys2Proof/Laws/Decode.lean ====
section
/-! SUPPORT. The fields of the host and query words, both ways. -/

namespace Sys2Proof

theorem hostWord_fields (op : BitVec 3) (p : Pad) (a b : Byte) :
    hostOp (hostWord op p a b) = op ∧ hostPad (hostWord op p a b) = p ∧ hostA (hostWord op p a b) = a ∧
    hostB (hostWord op p a b) = b := by
  refine ⟨?_, ?_, ?_, ?_⟩
  · ext i hi
    simp only [hostOp, hostWord, BitVec.getElem_extractLsb', BitVec.getLsbD_append]
    grind
  · have : (hostWord op p a b).getLsbD 16 = p.bit := by
      simp only [hostWord, BitVec.getLsbD_append]
      simp
    rw [hostPad, this, Pad.ofBit_bit]
  · ext i hi
    simp only [hostA, hostWord, BitVec.getElem_extractLsb', BitVec.getLsbD_append]
    grind
  · ext i hi
    simp only [hostB, hostWord, BitVec.getElem_extractLsb', BitVec.getLsbD_append]
    grind

theorem hostWord_of_fields (hc : BitVec 20) : hostWord (hostOp hc) (hostPad hc) (hostA hc) (hostB hc) = hc := by
  apply BitVec.eq_of_getLsbD_eq
  intro i hi
  have e : hostWord (hostOp hc) (hostPad hc) (hostA hc) (hostB hc) =
      hc.extractLsb' 17 3 ++ BitVec.ofBool (hc.getLsbD 16) ++ hc.extractLsb' 8 8 ++ hc.extractLsb' 0 8 := by
    unfold hostWord
    rw [show (hostPad hc).bit = hc.getLsbD 16 from Pad.bit_ofBit _]
    rfl
  rw [e, BitVec.getLsbD_append, BitVec.getLsbD_append, BitVec.getLsbD_append]
  simp only [BitVec.getLsbD_extractLsb', BitVec.getLsbD_ofBool]
  grind

theorem queryWord_fields (op : BitVec 3) (p : Pad) (sel : BitVec 4) :
    queryOp (queryWord op p sel) = op ∧ queryPad (queryWord op p sel) = p ∧
    querySel (queryWord op p sel) = sel := by
  revert op p sel
  intro op p
  cases p <;> revert op <;> decide

theorem queryWord_of_fields (qw : BitVec 8) : queryWord (queryOp qw) (queryPad qw) (querySel qw) = qw := by
  revert qw
  decide

end Sys2Proof
end

