-- ==== Sys2Proof/Laws/Invariant.lean ====
section
/-! SUPPORT. The induction over runs, once: what every step keeps holds after every run. -/

namespace Sys2Proof.Machine

/-- A run of one step more is a step and then the run. -/
theorem run_succ (n : Nat) (s : State) :
    Host.Core.run core (n + 1) s = andThen (step s) (Host.Core.run core n) := by
  simp only [Host.Core.run]
  rw [show core.step s = step s from rfl]
  cases step s <;> rfl

/-- A property that every step keeps holds at the end of every run that goes on. -/
theorem run_keeps {Inv : State → Prop} (hstep : ∀ s t, Inv s → step s = .next t → Inv t) (n : Nat) :
    ∀ s t : State, Inv s → Host.Core.run core n s = .next t → Inv t := by
  induction n with
  | zero =>
    intro s t hs h
    cases h
    exact hs
  | succ n ih =>
    intro s t hs h
    rw [run_succ] at h
    obtain ⟨u, hu, h⟩ := andThen_eq_next h
    exact ih u t (hstep s u hs hu) h

end Sys2Proof.Machine
end

