-- ==== Sys2Proof/Laws/PerInstr.lean ====
section
/-! SUPPORT. Statements about every instruction as syntax, one lemma for each constructor. -/

namespace Sys2Proof.Laws.Row

/-- The instruction has a row of the opcode table, under its mnemonic and in the format of its encoding. -/
def Statement (i : Instr) : Prop := ∃ r ∈ opcodeTable, r.mnemonic = i.mnemonic ∧ r.format = (encode i).format

theorem poll (pad : Pad) (a : Byte) (b : Byte) : Statement (.poll pad a b) :=
  ⟨opcodeTable[0], List.getElem_mem _, rfl, rfl⟩

theorem setMode (pad : Pad) (mode : Byte) (lock : Byte) : Statement (.setMode pad mode lock) :=
  ⟨opcodeTable[1], List.getElem_mem _, rfl, rfl⟩

theorem enMotors (pad : Pad) (e1 : Byte) (e2 : Byte) : Statement (.enMotors pad e1 e2) :=
  ⟨opcodeTable[2], List.getElem_mem _, rfl, rfl⟩

theorem setMotorLevels (pad : Pad) (m1 : Byte) (m2 : Byte) : Statement (.setMotorLevels pad m1 m2) :=
  ⟨opcodeTable[3], List.getElem_mem _, rfl, rfl⟩

theorem isDown (pad : Pad) (n : BitVec 4) : Statement (.isDown pad n) :=
  ⟨opcodeTable[4], List.getElem_mem _, rfl, rfl⟩

theorem pressed (pad : Pad) (n : BitVec 4) : Statement (.pressed pad n) :=
  ⟨opcodeTable[5], List.getElem_mem _, rfl, rfl⟩

theorem released (pad : Pad) (n : BitVec 4) : Statement (.released pad n) :=
  ⟨opcodeTable[6], List.getElem_mem _, rfl, rfl⟩

theorem axis (pad : Pad) (sel : BitVec 4) : Statement (.axis pad sel) :=
  ⟨opcodeTable[7], List.getElem_mem _, rfl, rfl⟩

theorem isAnalog (pad : Pad) (sel : BitVec 4) : Statement (.isAnalog pad sel) :=
  ⟨opcodeTable[8], List.getElem_mem _, rfl, rfl⟩

theorem isDigital (pad : Pad) (sel : BitVec 4) : Statement (.isDigital pad sel) :=
  ⟨opcodeTable[9], List.getElem_mem _, rfl, rfl⟩

theorem pollCmd (m1 : Byte) (m2 : Byte) : Statement (.pollCmd m1 m2) :=
  ⟨opcodeTable[10], List.getElem_mem _, rfl, rfl⟩

theorem enterCfg : Statement .enterCfg :=
  ⟨opcodeTable[11], List.getElem_mem _, rfl, rfl⟩

theorem exitCfg : Statement .exitCfg :=
  ⟨opcodeTable[12], List.getElem_mem _, rfl, rfl⟩

theorem setModeCmd (mode : Byte) (lock : Byte) : Statement (.setModeCmd mode lock) :=
  ⟨opcodeTable[13], List.getElem_mem _, rfl, rfl⟩

theorem enMotorsCmd (e1 : Byte) (e2 : Byte) : Statement (.enMotorsCmd e1 e2) :=
  ⟨opcodeTable[14], List.getElem_mem _, rfl, rfl⟩

end Sys2Proof.Laws.Row
end

