-- ==== Sys2Proof/Laws/Run.lean ====
section
/-! SUPPORT. Runs of edges: how a busy engine goes from phase to phase, bit to bit, byte to byte and transaction to
transaction, and that what its edges bear is what the line-event level lists. A proof about a whole operation chains
`Reach.start`, `Reach.transaction`, `Reach.nextTransaction` and `Reach.finish`. -/

namespace Sys2Proof.Machine

open Sys2Proof.Safety

/-! ### Runs of edges -/

theorem runEdges_append (es fs : List EdgeInputs) (s : State) :
    runEdges (es ++ fs) s = andThen (runEdges es s) (runEdges fs) := by
  induction es generalizing s with
  | nil => rfl
  | cons e es ih =>
    show andThen (clockEdge e s) (runEdges (es ++ fs)) = andThen (andThen (clockEdge e s) (runEdges es)) (runEdges fs)
    rw [andThen_assoc]
    congr 1
    funext t
    exact ih t

/-- The trace of a run with each edge's events before the tick that follows it. -/
def eventTrace : List EdgeInputs → State → Trace
  | [], _ => []
  | inp :: rest, s =>
    match clockEdge inp s with
    | .next s' => edgeEvents inp.dat s s' ++ .wait 1 :: eventTrace rest s'
    | .fault _ => []
    | .refused _ => []

theorem eventTrace_append {es : List EdgeInputs} {s t : State} (h : runEdges es s = .next t) (fs : List EdgeInputs) :
    eventTrace (es ++ fs) s = eventTrace es s ++ eventTrace fs t := by
  induction es generalizing s with
  | nil => cases h; rfl
  | cons e es ih =>
    obtain ⟨u, hu, h⟩ := andThen_eq_next h
    simp [eventTrace, hu, ih h]

/-- The two readings of a run differ only in where the first and the last tick stand. -/
theorem edgeTrace_eventTrace {es : List EdgeInputs} {s t : State} (h : runEdges es s = .next t) :
    edgeTrace es s ++ [.wait 1] = .wait 1 :: eventTrace es s := by
  induction es generalizing s with
  | nil => rfl
  | cons e es ih =>
    obtain ⟨u, hu, h⟩ := andThen_eq_next h
    simp [eventTrace, edgeTrace, hu, ih h]

theorem edgeTrace_of_eventTrace {es : List EdgeInputs} {s t : State} {tr : Trace} (h : runEdges es s = .next t)
    (he : eventTrace es s = tr ++ [.wait 1]) : edgeTrace es s = .wait 1 :: tr := by
  have := edgeTrace_eventTrace h
  rw [he] at this
  exact List.append_cancel_right (this.trans (by simp))

/-! ### A busy engine -/

/-- The line-event state `x` while an operation runs, at this position with these flags. -/
def onTick (x : State) (q : Seq) (e : ErrFlags) : State := { x with seq := q, err := e, done := false }

/-- The flags after edges on some of which something was offered. -/
def overrun (e : ErrFlags) (o : Bool) : ErrFlags := { e with errOvr := e.errOvr || o }

theorem overrun_overrun (e : ErrFlags) (o o' : Bool) : overrun (overrun e o) o' = overrun e (o || o') := by
  simp [overrun, Bool.or_assoc]

theorem clockEdge_onTick {inp : EdgeInputs} {q : Seq} (h : inp.rst = false) (hq : q.ph ≠ .idle) (x : State)
    (e : ErrFlags) : clockEdge inp (onTick x q e) = advance inp.dat (onTick x q (overrun e inp.cmdValid)) :=
  clockEdge_busy (s := onTick x q e) h hq

theorem edgeEvents_same (dat : Bool) {s t : State} (h : s.seq.ph = t.seq.ph) : edgeEvents dat s t = [] := by
  unfold edgeEvents
  rw [h]
  cases t.seq.ph <;> rfl

/-- Waiting: a phase with `m + 1` ticks to go reaches its last one over `m` edges, which bear no event. -/
theorem wait_edges {ph : Phase} (hp : ph ≠ .idle) (x : State) (t : Fin 3) (i : Fin 9) (k : Fin 8)
    (es : List EdgeInputs) (hr : NoReset es) (e : ErrFlags) :
    runEdges es (onTick x ⟨ph, t, i, k, es.length + 1⟩ e) =
      .next (onTick x ⟨ph, t, i, k, 1⟩ (overrun e (anyOffer es))) ∧
    eventTrace es (onTick x ⟨ph, t, i, k, es.length + 1⟩ e) = List.replicate es.length (.wait 1) := by
  induction es generalizing e with
  | nil => exact ⟨by simp [runEdges, overrun, anyOffer], rfl⟩
  | cons inp es ih =>
    obtain ⟨h1, h2⟩ := ih (fun f hf => hr f (List.mem_cons_of_mem _ hf)) (overrun e inp.cmdValid)
    have hc : clockEdge inp (onTick x ⟨ph, t, i, k, (inp :: es).length + 1⟩ e) =
        .next (onTick x ⟨ph, t, i, k, es.length + 1⟩ (overrun e inp.cmdValid)) := by
      rw [clockEdge_onTick (hr inp List.mem_cons_self) hp]
      exact advance_wait (s := onTick x ⟨ph, t, i, k, es.length + 1 + 1⟩ (overrun e inp.cmdValid)) hp (by simp [onTick])
    constructor
    · rw [runEdges, hc, andThen_next, h1, overrun_overrun]
      simp [anyOffer]
    · rw [eventTrace, hc]
      simp only [h2]
      rw [edgeEvents_same inp.dat (by rfl)]
      rfl

/-- After the edge `e` and the first `n` edges of `es` the engine stands at position `q` of an operation, the
line-event state is `x`, and `tr` is what the edges bore. -/
def Reach (s0 : State) (e : EdgeInputs) (es : List EdgeInputs) (n : Nat) (x : State) (q : Seq) (tr : Trace) : Prop :=
  runEdges (e :: es.take n) s0 = .next (onTick x q (overrun s0.err (anyOffer (es.take n)))) ∧
  eventTrace (e :: es.take n) s0 = tr

theorem Reach.congr {s0 x : State} {e : EdgeInputs} {es : List EdgeInputs} {n n' : Nat} {q : Seq} {tr tr' : Trace}
    (h : Reach s0 e es n x q tr) (hn : n = n') (ht : tr = tr') : Reach s0 e es n' x q tr' := by
  subst hn ht
  exact h

variable {s0 : State} {e : EdgeInputs} {es : List EdgeInputs}

/-- The inputs of edge `n`. -/
abbrev datAt (es : List EdgeInputs) (n : Nat) : Bool := (es.getD n default).dat

/-- One phase after another: the edge that ends a phase and the waits of the next. -/
theorem Reach.phase {n d : Nat} {x x' : State} {ph ph' : Phase} {t t' : Fin 3} {i i' : Fin 9} {k k' : Fin 8}
    {tr ev : Trace} (h : Reach s0 e es n x ⟨ph, t, i, k, 1⟩ tr) (hr : NoReset es) (hp : ph ≠ .idle)
    (hp' : ph' ≠ .idle) (hd : 1 ≤ d) (hn : n + d ≤ es.length)
    (hend : ∀ err, endPhase (datAt es n) (onTick x ⟨ph, t, i, k, 1⟩ err) =
      .next (onTick x' ⟨ph', t', i', k', d⟩ err))
    (hev : ∀ err err', edgeEvents (datAt es n) (onTick x ⟨ph, t, i, k, 1⟩ err)
      (onTick x' ⟨ph', t', i', k', d⟩ err') = ev) :
    Reach s0 e es (n + d) x' ⟨ph', t', i', k', 1⟩ (tr ++ (ev ++ List.replicate d (.wait 1))) := by
  obtain ⟨h1, h2⟩ := h
  have hlt : n < es.length := by omega
  obtain ⟨m, rfl⟩ : ∃ m, d = m + 1 := ⟨d - 1, by omega⟩
  have hsplit : es.take (n + (m + 1)) = es.take n ++ (es[n] :: (es.drop (n + 1)).take m) := by
    rw [List.take_add, List.drop_eq_getElem_cons hlt, List.take_succ_cons]
  have hdat : datAt es n = es[n].dat := by simp [datAt, List.getD_eq_getElem?_getD, hlt]
  have hlen : ((es.drop (n + 1)).take m).length = m := by simp; omega
  have hmem : ∀ f ∈ (es.drop (n + 1)).take m, f.rst = false := fun f hf =>
    hr f (List.mem_of_mem_drop (List.mem_of_mem_take hf))
  have hc (err : ErrFlags) : clockEdge es[n] (onTick x ⟨ph, t, i, k, 1⟩ err) =
      .next (onTick x' ⟨ph', t', i', k', m + 1⟩ (overrun err es[n].cmdValid)) := by
    rw [clockEdge_onTick (hr _ (List.getElem_mem _)) hp,
      advance_end (s := onTick x ⟨ph, t, i, k, 1⟩ (overrun err es[n].cmdValid)) hp rfl, ← hdat]
    exact hend _
  have hw := wait_edges hp' x' t' i' k' _ hmem
  rw [hlen] at hw
  have hrun : runEdges (es[n] :: (es.drop (n + 1)).take m) (onTick x ⟨ph, t, i, k, 1⟩ (overrun s0.err (anyOffer (es.take n)))) =
      .next (onTick x' ⟨ph', t', i', k', 1⟩ (overrun s0.err (anyOffer (es.take (n + (m + 1)))))) := by
    rw [runEdges, hc, andThen_next, (hw _).1, overrun_overrun, overrun_overrun, hsplit]
    simp [anyOffer]
  constructor
  · rw [hsplit, ← List.cons_append, runEdges_append, h1, andThen_next, hrun, hsplit]
  · rw [hsplit, ← List.cons_append, eventTrace_append h1, h2, eventTrace, hc]
    simp only [(hw _).2, ← hdat, hev]
    rfl

/-! ### One bit, one byte, one transaction -/

theorem unitWaits_append (a b : Trace) : (a ++ b).unitWaits = a.unitWaits ++ b.unitWaits := by
  simp [Trace.unitWaits]

theorem unitWaits_wait (d : Nat) (tr : Trace) : Trace.unitWaits (.wait d :: tr) = List.replicate d (.wait 1) ++ tr.unitWaits := by
  simp [Trace.unitWaits]

theorem unitWaits_set (l : Line) (v : Bool) (tr : Trace) : Trace.unitWaits (.set l v :: tr) = .set l v :: tr.unitWaits := by
  simp [Trace.unitWaits]

theorem unitWaits_sample (v : Bool) (tr : Trace) : Trace.unitWaits (.sample v :: tr) = .sample v :: tr.unitWaits := by
  simp [Trace.unitWaits]

theorem unitWaits_nil : Trace.unitWaits [] = [] := rfl

/-- The line-event state at the falling clock edge of a bit. -/
def fallen (x : State) : State := { x.setLine .cmd (x.txsr.getLsbD 0) with txsr := x.txsr >>> 1, lClk := false }

/-- The second half of a bit: from the last tick of `CLK_LOW` to the last tick of `CLK_HIGH`. -/
theorem Reach.high {n : Nat} {x : State} {t : Fin 3} {i : Fin 9} {k : Fin 8} {tr : Trace} (hr : NoReset es)
    (h : Reach s0 e es n (fallen x) ⟨.clkLow, t, i, k, 1⟩ tr) (hH : 1 ≤ x.tp.tHalf) (hn : n + x.tp.tHalf ≤ es.length) :
    Reach s0 e es (n + x.tp.tHalf) (xferBit (datAt es n) x).1 ⟨.clkHigh, t, i, k, 1⟩
      (tr ++ Trace.unitWaits [.set .clk true, .sample (datAt es n), .wait x.tp.tHalf]) := by
  have := h.phase hr (ph' := .clkHigh) (t' := t) (i' := i) (k' := k) (x' := (xferBit (datAt es n) x).1)
    (ev := [.set .clk true, .sample (datAt es n)]) (by simp) (by simp) hH hn (fun err => rfl) (fun err err' => rfl)
  simpa [unitWaits_set, unitWaits_sample, unitWaits_wait, unitWaits_nil] using this

/-- A bit: from the last tick of the phase before it, which `START_BIT` or `START_BYTE` ends, to the last tick of its
`CLK_HIGH`. -/
theorem Reach.bit {n : Nat} {x0 x : State} {ph : Phase} {t : Fin 3} {i i' : Fin 9} {k k' : Fin 8} {tr : Trace}
    (hr : NoReset es) (h : Reach s0 e es n x0 ⟨ph, t, i, k, 1⟩ tr)
    (hph : ph = .attWait ∨ ph = .clkHigh ∨ ph = .ackWait)
    (hH : 1 ≤ x.tp.tHalf) (hn : n + 2 * x.tp.tHalf ≤ es.length)
    (hend : ∀ err, endPhase (datAt es n) (onTick x0 ⟨ph, t, i, k, 1⟩ err) =
      .next (onTick (fallen x) ⟨.clkLow, t, i', k', x.tp.tHalf⟩ err)) :
    Reach s0 e es (n + 2 * x.tp.tHalf) (xferBit (datAt es (n + x.tp.tHalf)) x).1 ⟨.clkHigh, t, i', k', 1⟩
      (tr ++ (xferBit (datAt es (n + x.tp.tHalf)) x).2.unitWaits) := by
  have h1 := h.phase hr (ev := [.set .cmd (x.txsr.getLsbD 0), .set .clk false])
    (by rcases hph with rfl | rfl | rfl <;> simp) (by simp) hH (by omega) hend
    (fun err err' => by rcases hph with rfl | rfl | rfl <;> rfl)
  have h2 := h1.high hr hH (by omega)
  rw [show n + x.tp.tHalf + x.tp.tHalf = n + 2 * x.tp.tHalf by omega] at h2
  simpa [xferBit, unitWaits_set, unitWaits_sample, unitWaits_wait, unitWaits_nil] using h2

@[simp] theorem xferBit_tp (d : Bool) (x : State) : (xferBit d x).1.tp = x.tp := rfl
@[simp] theorem xferBits_tp (l : List Bool) (x : State) : (xferBits l x).1.tp = x.tp := by
  induction l generalizing x with
  | nil => rfl
  | cons d l ih => exact ih _

/-- The bits of a byte after its bit `k`. -/
theorem Reach.bits (hr : NoReset es) {t : Fin 3} {i : Fin 9} {H : Nat} (hH : 1 ≤ H) (l : List Bool) :
    ∀ {n : Nat} {x : State} {k : Fin 8} {tr : Trace}, Reach s0 e es n x ⟨.clkHigh, t, i, k, 1⟩ tr → x.tp.tHalf = H →
    k.val + l.length = 7 → n + 2 * H * l.length ≤ es.length →
    (∀ j (hj : j < l.length), l[j] = datAt es (n + 2 * H * j + H)) →
    Reach s0 e es (n + 2 * H * l.length) (xferBits l x).1 ⟨.clkHigh, t, i, 7, 1⟩ (tr ++ (xferBits l x).2.unitWaits) := by
  induction l with
  | nil =>
    intro n x k tr h _ hk _ _
    have : k = 7 := Fin.ext (by simpa using hk)
    subst this
    simpa [xferBits, unitWaits_nil] using h
  | cons d l ih =>
    intro n x k tr h hx hk hn hl
    subst hx
    simp only [List.length_cons] at hk hn
    have e1 : n + 2 * x.tp.tHalf * (l.length + 1) = n + 2 * x.tp.tHalf + 2 * x.tp.tHalf * l.length := by ring
    have h0 : d = datAt es (n + x.tp.tHalf) := hl 0 (Nat.succ_pos _)
    have hk1 : (k + 1).val = k.val + 1 := by rw [Fin.val_add]; show (_ + 1) % 8 = _; omega
    have hb := h.bit (x := x) (i' := i) (k' := k + 1) hr (.inr (.inl rfl)) hH (by omega) (fun err => by
      show (if k < 7 then _ else _) = _
      rw [if_pos (by rw [Fin.lt_def]; show k.val < 7; omega)]
      rfl)
    rw [← h0] at hb
    have := ih hb rfl (by rw [hk1]; omega) (by rw [← e1]; exact hn) (fun j hj => by
      have := hl (j + 1) (by simpa using hj)
      rw [List.getElem_cons_succ] at this
      rw [this]; congr 1; ring)
    rw [← e1] at this
    simpa [xferBits, unitWaits_append] using this

theorem byteBits_eq (b : Byte) : byteBits b = b.getLsbD 0 :: [b.getLsbD 1, b.getLsbD 2, b.getLsbD 3, b.getLsbD 4,
    b.getLsbD 5, b.getLsbD 6, b.getLsbD 7] := rfl

@[simp] theorem xferByte_tp (b ans : Byte) (x : State) : (xferByte b ans x).1.tp = x.tp := by
  simp [xferByte]

/-- A byte: from the last tick of the phase before it to the last tick of its `ACK_WAIT`. -/
theorem Reach.byte {n : Nat} {x : State} {ph : Phase} {t : Fin 3} {i i' : Fin 9} {k : Fin 8} {tr : Trace} {ans : Byte}
    (hr : NoReset es) (h : Reach s0 e es n x ⟨ph, t, i, k, 1⟩ tr) (hph : ph = .attWait ∨ ph = .ackWait)
    (hH : 1 ≤ x.tp.tHalf) (hK : 1 ≤ x.tp.tAck) (hn : n + (16 * x.tp.tHalf + x.tp.tAck) ≤ es.length)
    (hend : ∀ err, endPhase (datAt es n) (onTick x ⟨ph, t, i, k, 1⟩ err) =
      .next (startByte i' (onTick x ⟨ph, t, i, k, 1⟩ err)))
    (hans : ∀ j : Fin 8, ans.getLsbD j.val = datAt es (n + 2 * x.tp.tHalf * j.val + x.tp.tHalf)) :
    let y := xferByte x.cbuf[i'] ans x
    Reach s0 e es (n + (16 * x.tp.tHalf + x.tp.tAck)) (y.1.write (.resp i') y.1.rxsr) ⟨.ackWait, t, i', 7, 1⟩
      (tr ++ Trace.unitWaits (y.2 ++ [.wait x.tp.tAck])) := by
  intro y
  have h0 := hans 0
  simp only [Fin.val_zero, Nat.mul_zero, Nat.add_zero] at h0
  have h1 := h.bit (x := { x with txsr := x.cbuf[i'] }) (i' := i') (k' := 0) hr
    (by rcases hph with rfl | rfl <;> simp) hH (by show n + 2 * x.tp.tHalf ≤ _; omega) hend
  rw [← h0] at h1
  have h2 := h1.bits hr hH [ans.getLsbD 1, ans.getLsbD 2, ans.getLsbD 3, ans.getLsbD 4, ans.getLsbD 5, ans.getLsbD 6,
    ans.getLsbD 7] rfl rfl (by show n + 2 * x.tp.tHalf + 2 * x.tp.tHalf * 7 ≤ _; omega) (by
      intro j hj
      have hj' : j + 1 < 8 := Nat.succ_lt_succ hj
      have := hans ⟨j + 1, hj'⟩
      rw [show n + 2 * ({ x with txsr := x.cbuf[i'] } : State).tp.tHalf + 2 * x.tp.tHalf * j + x.tp.tHalf =
        n + 2 * x.tp.tHalf * (j + 1) + x.tp.tHalf by show n + 2 * x.tp.tHalf + _ + _ = _; ring]
      rw [← this]
      match j, hj' with
      | 0, _ => rfl
      | 1, _ => rfl
      | 2, _ => rfl
      | 3, _ => rfl
      | 4, _ => rfl
      | 5, _ => rfl
      | 6, _ => rfl)
  have hy : y.1.tp = x.tp := xferByte_tp ..
  have h3 := Reach.phase (x' := y.1.write (.resp i') y.1.rxsr) (ev := []) (d := x.tp.tAck) (i' := i') (k' := 7) (t' := t)
    (ph' := .ackWait) h2 hr (by simp) (by simp) hK
    (by show n + 2 * x.tp.tHalf + 2 * x.tp.tHalf * 7 + _ ≤ _; omega)
    (by
      intro err
      show Host.Outcome.next (endByte _) = _
      have : x.tp.tAck = y.1.tp.tAck := by rw [hy]
      rw [this]
      rfl) (fun _ _ => rfl)
  refine h3.congr (by show n + 2 * x.tp.tHalf + 2 * x.tp.tHalf * 7 + x.tp.tAck = _; ring) ?_
  rw [unitWaits_append, unitWaits_wait, unitWaits_nil]
  show _ = tr ++ (Trace.unitWaits (_ ++ _) ++ _)
  rw [unitWaits_append]
  simp only [List.append_assoc, List.nil_append, List.append_nil]
  rfl

@[simp] theorem write_resp_tp (x : State) (i : Fin 9) (v : Byte) : (x.write (.resp i) v).tp = x.tp := rfl

/-- Frame of the bits of a byte: they write only the shift registers and the clock and command lines. -/
theorem xferBits_frame (l : List Bool) (x : State) : ∃ tx rx ck cm,
    (xferBits l x).1 = { x with txsr := tx, rxsr := rx, lClk := ck, lCmd := cm } := by
  induction l generalizing x with
  | nil => exact ⟨_, _, _, _, rfl⟩
  | cons d l ih =>
    obtain ⟨tx, rx, ck, cm, h⟩ := ih (xferBit d x).1
    refine ⟨tx, rx, ck, cm, ?_⟩
    show (xferBits l (xferBit d x).1).1 = _
    rw [h]
    rfl

/-- Frame of XFER_BYTE. -/
theorem xferByte_frame (b ans : Byte) (x : State) : ∃ tx rx ck cm,
    (xferByte b ans x).1 = { x with txsr := tx, rxsr := rx, lClk := ck, lCmd := cm } :=
  xferBits_frame (byteBits ans) { x with txsr := b }

theorem transactBytes_cons_state (ans : Frame) (i : Fin 9) (l : List (Fin 9)) (x : State) :
    (transactBytes ans (i :: l) x).1 = (transactBytes ans l
      ((xferByte x.cbuf[i] ans[i] x).1.write (.resp i) (xferByte x.cbuf[i] ans[i] x).1.rxsr)).1 := rfl

theorem transactBytes_cons_trace (ans : Frame) (i : Fin 9) (l : List (Fin 9)) (x : State) :
    (transactBytes ans (i :: l) x).2.unitWaits =
      Trace.unitWaits ((xferByte x.cbuf[i] ans[i] x).2 ++ [.wait x.tp.tAck]) ++ (transactBytes ans l
        ((xferByte x.cbuf[i] ans[i] x).1.write (.resp i) (xferByte x.cbuf[i] ans[i] x).1.rxsr)).2.unitWaits := by
  rw [transactBytes, List.append_cons, unitWaits_append]

/-- The bytes of a transaction after its byte `i`. -/
theorem Reach.bytes (hr : NoReset es) {t : Fin 3} {ans : Frame} {H K n0 : Nat} (hH : 1 ≤ H) (hK : 1 ≤ K)
    (hans : ∀ (i : Fin 9) (j : Fin 8), ans[i].getLsbD j.val = datAt es (n0 + (16 * H + K) * i.val + 2 * H * j.val + H))
    (hlen : n0 + (16 * H + K) * 9 ≤ es.length) (m : Nat) :
    ∀ {x : State} {i : Fin 9} {tr : Trace}, i.val + m = 8 →
    Reach s0 e es (n0 + (16 * H + K) * (i.val + 1)) x ⟨.ackWait, t, i, 7, 1⟩ tr → x.tp.tHalf = H → x.tp.tAck = K →
    Reach s0 e es (n0 + (16 * H + K) * 9) (transactBytes ans ((List.finRange 9).drop (i.val + 1)) x).1
      ⟨.ackWait, t, 8, 7, 1⟩
      (tr ++ (transactBytes ans ((List.finRange 9).drop (i.val + 1)) x).2.unitWaits) := by
  induction m with
  | zero =>
    intro x i tr him h _ _
    have : i = 8 := Fin.ext (by simpa using him)
    subst this
    have e0 : (List.finRange 9).drop ((8 : Fin 9).val + 1) = [] := rfl
    rw [e0, transactBytes, unitWaits_nil, List.append_nil]
    exact h
  | succ m ih =>
    intro x i tr him h hxH hxK
    have hi : i.val + 1 < 9 := by omega
    have hi1 : (i + 1).val = i.val + 1 := by rw [Fin.val_add]; show (_ + 1) % 9 = _; omega
    have hdrop : (List.finRange 9).drop (i.val + 1) = (i + 1) :: (List.finRange 9).drop ((i + 1).val + 1) := by
      rw [List.drop_eq_getElem_cons (by simpa using hi), hi1]
      congr 1
      exact Fin.ext (by simp [hi1])
    have hb := h.byte (i' := i + 1) (ans := ans[i + 1]) hr (.inr rfl) (by omega) (by omega)
      (by
        have : (16 * H + K) * (i.val + 1) + (16 * H + K) ≤ (16 * H + K) * 9 := by
          rw [← Nat.mul_succ]; exact Nat.mul_le_mul_left _ (by omega)
        rw [hxH, hxK]; omega)
      (fun err => by
        show (if i < 8 then _ else _) = _
        rw [if_pos (by rw [Fin.lt_def]; show i.val < 8; omega)]
        rfl)
      (fun j => by rw [hans, hxH, hi1])
    rw [hxH, hxK, show n0 + (16 * H + K) * (i.val + 1) + (16 * H + K) = n0 + (16 * H + K) * ((i + 1).val + 1) by
      rw [hi1]; ring] at hb
    have := ih (by rw [hi1]; omega) hb (by simpa using hxH) (by simpa using hxK)
    rw [hdrop]
    rw [transactBytes_cons_state, transactBytes_cons_trace, hxK, ← List.append_assoc]
    exact this

/-- Frame of the byte loop of TRANSACT: it writes `RESP` beside what XFER_BYTE writes. -/
theorem transactBytes_frame (ans : Frame) (l : List (Fin 9)) (x : State) : ∃ r tx rx ck cm,
    (transactBytes ans l x).1 = { x with resp := r, txsr := tx, rxsr := rx, lClk := ck, lCmd := cm } := by
  induction l generalizing x with
  | nil => exact ⟨_, _, _, _, _, rfl⟩
  | cons i l ih =>
    rw [transactBytes_cons_state]
    obtain ⟨tx, rx, ck, cm, h⟩ := xferByte_frame x.cbuf[i] ans[i] x
    rw [h]
    obtain ⟨r, tx', rx', ck', cm', h'⟩ := ih _
    exact ⟨r, tx', rx', ck', cm', h'⟩

theorem transactBytes_keeps (ans : Frame) (l : List (Fin 9)) (x : State) :
    (transactBytes ans l x).1.tp = x.tp ∧ (transactBytes ans l x).1.padr = x.padr := by
  obtain ⟨r, tx, rx, ck, cm, h⟩ := transactBytes_frame ans l x
  rw [h]
  exact ⟨rfl, rfl⟩

/-- A transaction: from the last tick of its `ATT_WAIT` to the last tick of its `INTER_WAIT`. -/
theorem Reach.transaction (hr : NoReset es) {n : Nat} {x : State} {t : Fin 3} {i : Fin 9} {k : Fin 8} {tr : Trace}
    {ans : Frame} (h : Reach s0 e es n x ⟨.attWait, t, i, k, 1⟩ tr) (htp : x.tp.positive)
    (hlen : n + (16 * x.tp.tHalf + x.tp.tAck) * 9 + x.tp.tInter ≤ es.length)
    (hans : ∀ (i : Fin 9) (j : Fin 8), ans[i].getLsbD j.val =
      datAt es (n + (16 * x.tp.tHalf + x.tp.tAck) * i.val + 2 * x.tp.tHalf * j.val + x.tp.tHalf)) :
    let y := transactBytes ans (List.finRange 9) x
    Reach s0 e es (n + (16 * x.tp.tHalf + x.tp.tAck) * 9 + x.tp.tInter) (y.1.setLine (attLine x.padr) true)
      ⟨.interWait, t, 8, 7, 1⟩
      (tr ++ Trace.unitWaits (y.2 ++ [.set (attLine x.padr) true, .wait x.tp.tInter])) := by
  intro y
  obtain ⟨-, hN, hH, hK⟩ := htp
  have h1 := h.byte (i' := 0) (ans := ans[0]) hr (.inl rfl) hH hK (by omega) (fun err => rfl)
    (fun j => by simpa using hans 0 j)
  have h2 := Reach.bytes (n0 := n) (i := 0) (m := 8) (ans := ans) hr hH hK hans (by omega) rfl
    (h1.congr (by simp) rfl) (by simp) (by simp)
  have hk := transactBytes_keeps ans (List.finRange 9) x
  have h3 := Reach.phase (x' := y.1.setLine (attLine x.padr) true) (ev := [.set (attLine x.padr) true])
    (d := x.tp.tInter) (i' := 8) (k' := 7) (t' := t) (ph' := .interWait) h2 hr (by simp) (by simp) hN (by omega)
    (by
      intro err
      show Host.Outcome.next (releaseAttention (onTick y.1 _ err)) = _
      have e1 : x.tp.tInter = y.1.tp.tInter := by rw [hk.1]
      have e2 : x.padr = y.1.padr := hk.2.symm
      rw [e1, e2]
      cases hp : y.1.padr <;> simp [releaseAttention, State.setAtt, onTick, hp, attLine, State.setLine])
    (by
      intro err err'
      have e2 : x.padr = y.1.padr := hk.2.symm
      rw [e2]
      show [LineEvent.set (attLine (onTick (y.1.setLine (attLine y.1.padr) true) _ err').padr) true] = _
      simp [onTick])
  have htr : (transactBytes ans (List.finRange 9) x).2.unitWaits = _ := transactBytes_cons_trace ans 0 _ x
  refine h3.congr rfl (Eq.symm ?_)
  show tr ++ Trace.unitWaits ((transactBytes ans (List.finRange 9) x).2 ++ _) = _
  rw [unitWaits_append (transactBytes ans (List.finRange 9) x).2, htr, unitWaits_set, unitWaits_wait, unitWaits_nil]
  simp only [List.append_assoc, List.cons_append, List.nil_append, List.append_nil]
  rfl

theorem capturedFrame_bit (tp : TimingProfile) (es : List EdgeInputs) (i : Fin 9) (k : Fin 8) :
    (capturedFrame tp es)[i].getLsbD k.val = datAt es (captureEdge tp i k) := by
  simp [capturedFrame, datAt]

/-- The transaction that starts on edge `b`, its answer read off the edges' data line. -/
theorem Reach.captured (hr : NoReset es) {b : Nat} {x : State} {t : Fin 3} {i : Fin 9} {k : Fin 8} {tr : Trace}
    (h : Reach s0 e es (b + (x.tp.tAtt - 1)) x ⟨.attWait, t, i, k, 1⟩ tr) (htp : x.tp.positive)
    (hlen : b + txnTicks x.tp ≤ es.length + 1) :
    let y := transactBytes (capturedFrame x.tp (es.drop b)) (List.finRange 9) x
    Reach s0 e es (b + (txnTicks x.tp - 1)) (y.1.setLine (attLine x.padr) true) ⟨.interWait, t, 8, 7, 1⟩
      (tr ++ Trace.unitWaits (y.2 ++ [.set (attLine x.padr) true, .wait x.tp.tInter])) := by
  have hA := htp.1
  unfold txnTicks at hlen ⊢
  refine (h.transaction hr htp (by omega) fun i j => ?_).congr (by omega) rfl
  rw [capturedFrame_bit]
  simp only [datAt, captureEdge]
  rw [List.getD_eq_getElem?_getD, List.getElem?_drop, ← List.getD_eq_getElem?_getD]
  congr 2
  omega

/-! ### The start, the middle and the end of an operation -/

/-- The line-event state in which the transaction that sends `cmd` to the pad in `PADR` has begun. -/
def attended (cmd : Frame) (x : State) : State := { x with cbuf := cmd }.setLine (attLine x.padr) false

theorem started_onTick {op : TxnOp} {p : Pad} {a b : Byte} {s : State} (e : ErrFlags) (q : Seq) :
    onTick (started op p a b { s with done := false }) q e =
      onTick (attended (commandOf op 0 (accepted op p a b s)) (accepted op p a b s)) q e := by
  cases op <;> cases p <;> rfl

/-- The acceptance of an operation that starts transactions, and the waits of the first `ATT_WAIT`. -/
theorem Reach.start {op : TxnOp} {p : Pad} {a b : Byte} (hr : NoReset es) (hi : s0.seq.ph = .idle)
    (htp : s0.tp.positive) (h2 : p = .pad2 → s0.cfg.hasAtt2 = true) (ho : Offers e (startInstr op p a b))
    (hlen : s0.tp.tAtt - 1 ≤ es.length) :
    Reach s0 e es (s0.tp.tAtt - 1) (attended (commandOf op 0 (accepted op p a b s0)) (accepted op p a b s0))
      ⟨.attWait, 0, s0.seq.i, s0.seq.k, 1⟩ (Trace.unitWaits [.set (attLine p) false, .wait s0.tp.tAtt]) := by
  obtain ⟨hrst, hv, hd⟩ := ho
  obtain ⟨m, hm⟩ : ∃ m, s0.tp.tAtt = m + 1 := ⟨s0.tp.tAtt - 1, by have := htp.1; omega⟩
  have hm1 : s0.tp.tAtt - 1 = m := by omega
  rw [hm1] at hlen ⊢
  rw [hm]
  have hs : clockEdge e s0 = .next (started op p a b { s0 with done := false }) := by
    rw [clockEdge_idle hrst hi, hv, if_pos rfl, offer, hd]
    exact exec_start_ok (s := { s0 with done := false }) hi h2
  have hq : started op p a b { s0 with done := false } =
      onTick (attended (commandOf op 0 (accepted op p a b s0)) (accepted op p a b s0))
        ⟨.attWait, 0, s0.seq.i, s0.seq.k, m + 1⟩ s0.err := by
    rw [← started_onTick, ← hm]
    cases op <;> rfl
  have hmem : ∀ f ∈ es.take m, f.rst = false := fun f hf => hr f (List.mem_of_mem_take hf)
  have hw := wait_edges (ph := .attWait) (by simp) (attended (commandOf op 0 (accepted op p a b s0))
    (accepted op p a b s0)) 0 s0.seq.i s0.seq.k (es.take m) hmem s0.err
  rw [show (es.take m).length = m by simpa using hlen] at hw
  constructor
  · rw [runEdges, hs, andThen_next, hq, hw.1]
  · rw [eventTrace, hs]
    simp only
    rw [hq, hw.2, unitWaits_set, unitWaits_wait, unitWaits_nil]
    have hev : edgeEvents e.dat s0 (onTick (attended (commandOf op 0 (accepted op p a b s0)) (accepted op p a b s0))
        ⟨.attWait, 0, s0.seq.i, s0.seq.k, m + 1⟩ s0.err) = [.set (attLine p) false] := by
      unfold edgeEvents
      rw [hi]
      cases op <;> cases p <;> rfl
    rw [hev, List.replicate_succ, List.append_nil]
    rfl

/-- The end of a transaction that is not the last: the next one begins. -/
theorem Reach.nextTransaction (hr : NoReset es) {n : Nat} {x : State} {t : Fin 3} {i : Fin 9} {k : Fin 8} {tr : Trace}
    {op : TxnOp} (h : Reach s0 e es n x ⟨.interWait, t, i, k, 1⟩ tr) (hop : TxnOp.ofCode x.opr = some op)
    (ht : t < op.last) (h2 : x.padr = .pad2 → x.cfg.hasAtt2 = true) (hA : 1 ≤ x.tp.tAtt)
    (hlen : n + x.tp.tAtt ≤ es.length) :
    Reach s0 e es (n + x.tp.tAtt) (attended (commandOf op (t + 1) x) x) ⟨.attWait, t + 1, i, k, 1⟩
      (tr ++ Trace.unitWaits [.set (attLine x.padr) false, .wait x.tp.tAtt]) := by
  have ht1 : t + 1 ≤ op.last := by
    clear h
    revert t
    cases op <;> decide
  have h3 := Reach.phase (x' := attended (commandOf op (t + 1) x) x) (ev := [.set (attLine x.padr) false])
    (d := x.tp.tAtt) (i' := i) (k' := k) (t' := t + 1) (ph' := .attWait) h hr (by simp) (by simp) hA hlen
    (by
      intro err
      show endTransaction (onTick x ⟨.interWait, t, i, k, 1⟩ err) = _
      unfold endTransaction
      rw [show (onTick x ⟨.interWait, t, i, k, 1⟩ err).opr = x.opr from rfl, hop]
      show (if t < op.last then startTxn (t + 1) _ else _) = _
      rw [if_pos ht, startTxn_eq (s := onTick x ⟨.interWait, t, i, k, 1⟩ err) hop ht1,
        beginTransaction_ok (s := { onTick x ⟨.interWait, t, i, k, 1⟩ err with
          seq := { (onTick x ⟨.interWait, t, i, k, 1⟩ err).seq with t := t + 1 } }) h2,
        show commandOf op (t + 1) (onTick x ⟨.interWait, t, i, k, 1⟩ err) = commandOf op (t + 1) x by
          unfold commandOf; rfl]
      cases hp : x.padr <;> simp [attended, onTick, hp, attLine, State.setLine])
    (by
      intro err err'
      show [LineEvent.set (attLine (onTick (attended (commandOf op (t + 1) x) x) _ err').padr) false] = _
      simp [onTick, attended])
  refine h3.congr rfl ?_
  rw [unitWaits_set, unitWaits_wait, unitWaits_nil]
  simp

/-- The end of the last transaction: the operation ends, and its edge bears no event. -/
theorem Reach.finish (hr : NoReset es) {n : Nat} {x : State} {t : Fin 3} {i : Fin 9} {k : Fin 8} {tr : Trace}
    {op : TxnOp} (h : Reach s0 e es n x ⟨.interWait, t, i, k, 1⟩ tr) (hop : TxnOp.ofCode x.opr = some op)
    (ht : t = op.last) (hlen : es.length = n + 1) :
    runEdges (e :: es) s0 =
      .next (endOperation op (onTick x ⟨.interWait, t, i, k, 1⟩ (overrun s0.err (anyOffer es)))) ∧
    edgeTrace (e :: es) s0 = .wait 1 :: tr := by
  obtain ⟨h1, h2⟩ := h
  have hlt : n < es.length := by omega
  have hsplit : es = es.take n ++ [es[n]] := by
    conv_lhs => rw [← List.take_append_drop n es, List.drop_eq_getElem_cons hlt, List.drop_eq_nil_of_le (by omega)]
  have hc (err : ErrFlags) : clockEdge es[n] (onTick x ⟨.interWait, t, i, k, 1⟩ err) =
      .next (endOperation op (onTick x ⟨.interWait, t, i, k, 1⟩ (overrun err es[n].cmdValid))) := by
    rw [clockEdge_onTick (hr _ (List.getElem_mem _)) (by simp),
      advance_end (s := onTick x ⟨.interWait, t, i, k, 1⟩ (overrun err es[n].cmdValid)) (by simp [onTick]) rfl]
    show endTransaction _ = _
    unfold endTransaction
    rw [show (onTick x ⟨.interWait, t, i, k, 1⟩ (overrun err es[n].cmdValid)).opr = x.opr from rfl, hop]
    show (if t < op.last then _ else if t = op.last then _ else _) = _
    rw [if_neg (by rw [ht]; exact lt_irrefl _), if_pos ht]
  have hoff : anyOffer es = (anyOffer (es.take n) || es[n].cmdValid) := by
    unfold anyOffer
    conv_lhs => rw [hsplit]
    rw [List.any_append]
    simp
  have hrun : runEdges (e :: es) s0 =
      .next (endOperation op (onTick x ⟨.interWait, t, i, k, 1⟩ (overrun s0.err (anyOffer es)))) := by
    rw [hoff, ← overrun_overrun]
    conv_lhs => rw [hsplit]
    rw [← List.cons_append, runEdges_append, h1, andThen_next, runEdges, hc]
    rfl
  refine ⟨hrun, edgeTrace_of_eventTrace hrun ?_⟩
  have : eventTrace (e :: es) s0 = eventTrace (e :: (es.take n ++ [es[n]])) s0 := by rw [← hsplit]
  rw [this, ← List.cons_append, eventTrace_append h1, h2, eventTrace, hc]
  simp only [eventTrace]
  congr 1

end Sys2Proof.Machine
end

