-- ==== Sys2Proof/Tests/Slice0.lean ====
section
/-! SUPPORT. Tests of the model and witnesses of the statements' hypotheses. Expected values come from
spec/95_test_vectors.md (V, P), from the worked examples of the rules (R) or from a calculation by hand from them. -/

namespace Sys2Proof.Tests

open Sys2Proof.Machine Sys2Proof.Safety

/-! ### Helpers -/

/-- A board after reset with the example profile of the test vectors. -/
def board (hasAtt2 : Bool) : State :=
  { State.resetWith ⟨false, hasAtt2, false⟩ ⟨[], 0, 0⟩ with tp := ⟨3, 2, 1, 2⟩ }

/-- The outcome is a next state with this property. -/
def answers (o : Result) (f : State → Bool) : Bool :=
  match o with
  | .next t => f t
  | .fault _ => false
  | .refused _ => false

/-- The value on `Q_RESULT` after an outcome is `v`. -/
def reports (o : Result) (v : Byte) : Bool := answers o fun t => t.env.qResult == v

/-- `s` with this byte of `CUR[0]` and of `PREV[0]`. -/
def frames (i : Fin 9) (c p : Byte) (s : State) : State := (s.write (.cur .pad1 i) c).write (.prev .pad1 i) p

/-- `s` in a phase of an operation on pad 1. -/
def during (op : TxnOp) (ph : Phase) (t : Fin 3) (i : Fin 9) (k : Fin 8) (w : Nat) (s : State) : State :=
  { s with opr := op.code, padr := .pad1, seq := ⟨ph, t, i, k, w⟩ }

/-- An edge that offers the word `hc`. -/
def offering (hc : BitVec 20) : EdgeInputs := ⟨false, ⟨false, false, false⟩, true, hc, true, false⟩

/-- An edge that offers nothing. -/
def quiet (dat : Bool) : EdgeInputs := ⟨false, ⟨false, false, false⟩, false, 0, dat, false⟩

/-- An edge with `rst = 1`. -/
def resetting (straps : Straps) : EdgeInputs := ⟨true, straps, true, 0x20000, false, false⟩

/-! ### WellFormed -/

/-- The one check: AXIS with `Q_SEL[3:2]` not 0 (R99). -/
theorem test_axis_selector_four_ill_formed : (Instr.axis .pad1 4).wellFormed = false := by decide

theorem test_axis_selector_three_well_formed : (Instr.axis .pad1 3).wellFormed = true := by decide

/-! ### Decoding: words bit by bit from R92, R96, R98 -/

theorem test_decode_poll : decodeHostCmd (0b001#3 ++ 0b1#1 ++ 0b00010010#8 ++ 0b00110100#8) =
    .ok (.poll .pad2 0x12 0x34) := by rfl

theorem test_decode_setMode : decodeHostCmd (0b010#3 ++ 0b0#1 ++ 0b00000001#8 ++ 0b00000011#8) =
    .ok (.setMode .pad1 0x01 0x03) := by rfl

theorem test_decode_enMotors : decodeHostCmd (0b011#3 ++ 0b0#1 ++ 0b00000000#8 ++ 0b00000001#8) =
    .ok (.enMotors .pad1 0x00 0x01) := by rfl

theorem test_decode_setMotorLevels : decodeHostCmd (0b100#3 ++ 0b1#1 ++ 0b11111111#8 ++ 0b10000000#8) =
    .ok (.setMotorLevels .pad2 0xFF 0x80) := by rfl

theorem test_decode_isDown : decodeQuery (0b000#3 ++ 0b1#1 ++ 0b0111#4) = .ok (.isDown .pad2 7) := by rfl

theorem test_decode_pressed : decodeQuery (0b001#3 ++ 0b0#1 ++ 0b1110#4) = .ok (.pressed .pad1 14) := by rfl

theorem test_decode_released : decodeQuery (0b010#3 ++ 0b0#1 ++ 0b1111#4) = .ok (.released .pad1 15) := by rfl

theorem test_decode_axis : decodeQuery (0b011#3 ++ 0b1#1 ++ 0b0011#4) = .ok (.axis .pad2 3) := by rfl

theorem test_decode_isAnalog : decodeQuery (0b100#3 ++ 0b0#1 ++ 0b1001#4) = .ok (.isAnalog .pad1 9) := by rfl

theorem test_decode_isDigital : decodeQuery (0b101#3 ++ 0b1#1 ++ 0b0000#4) = .ok (.isDigital .pad2 0) := by rfl

/-- V11. -/
theorem test_decode_pollCmd : decodeWireCmd #v[0b00000001, 0b01000010, 0b00000000, 0b11111111, 0b10000000, 0, 0, 0, 0] =
    .ok (.pollCmd 0xFF 0x80) := by rfl

/-- V12. -/
theorem test_decode_enterCfg : decodeWireCmd #v[0b00000001, 0b01000011, 0b00000000, 0b00000001, 0, 0, 0, 0, 0] =
    .ok .enterCfg := by rfl

/-- V13. -/
theorem test_decode_exitCfg : decodeWireCmd #v[0b00000001, 0b01000011, 0, 0, 0b01011010, 0b01011010, 0b01011010,
    0b01011010, 0b01011010] = .ok .exitCfg := by rfl

/-- V14. -/
theorem test_decode_setModeCmd : decodeWireCmd #v[0b00000001, 0b01000100, 0, 0b00000001, 0b00000011, 0, 0, 0, 0] =
    .ok (.setModeCmd 0x01 0x03) := by rfl

/-- V15. -/
theorem test_decode_enMotorsCmd : decodeWireCmd #v[0b00000001, 0b01001101, 0, 0b00000000, 0b00000001, 0b11111111,
    0b11111111, 0b11111111, 0b11111111] = .ok (.enMotorsCmd 0x00 0x01) := by rfl

/-- V12 to V14 as the numbers of R93, and words of P1, P2, P4 (reserved codes included). -/
theorem test_table_words :
    decodeTableWord 72 0x014300010000000000 = some .enterCfg ∧
    decodeTableWord 72 0x014300005A5A5A5A5A = some .exitCfg ∧
    decodeTableWord 72 0x014400010300000000 = some (.setModeCmd 0x01 0x03) ∧
    decodeTableWord 24 0x91122 = some (.setMotorLevels .pad2 0x11 0x22) ∧
    decodeTableWord 24 0x10000 = none ∧ decodeTableWord 24 0xE0000 = none ∧
    decodeTableWord 8 0x64 = none ∧ decodeTableWord 8 0xC0 = none := by decide

/-- The catalogue numbers of R176: LEFT is byte 3 mask 0x80, CROSS is byte 4 mask 0x40. -/
theorem test_button_catalogue :
    buttonIndex (Button.left.number) = 3 ∧ buttonMask (Button.left.number) = 0x80 ∧
    buttonIndex (Button.cross.number) = 4 ∧ buttonMask (Button.cross.number) = 0x40 := by decide

/-! ### One step of each instruction, on its port or through the sequencer -/

/-- V40, edge t: POLL 1 accepted. -/
theorem test_poll : answers (step ((board false).withFetchWord 24 0x20000)) (fun t =>
    decide (t.seq.ph = .attWait ∧ t.seq.w = 3 ∧ t.lAtt1 = false ∧ t.lAtt2 = true ∧ t.lClk = true ∧ t.lCmd = true ∧
      t.cbuf = #v[0x01, 0x42, 0, 0, 0, 0, 0, 0, 0])) = true := by decide

/-- P4, step 1: POLL 2 without the attention line. -/
theorem test_poll_pad2_rejected : answers (step ((board false).withFetchWord 24 0x30000)) (fun t =>
    decide (t.statusPort = 0x2#4 ∧ t.lAtt2 = true)) = true := by decide

/-- P3, step 2: SETMODE 1, 0x01, 0x03. -/
theorem test_setMode : answers (step ((board false).withFetchWord 24 0x40103)) (fun t =>
    decide (t.cbuf = #v[0x01, 0x43, 0, 0x01, 0, 0, 0, 0, 0] ∧ t.ar = 0x01 ∧ t.br = 0x03 ∧ t.opr = 2)) = true := by
  decide

/-- P3, step 3: ENMOTORS 1, 0x00, 0x01. -/
theorem test_enMotors : answers (step ((board false).withFetchWord 24 0x60001)) (fun t =>
    decide (t.cbuf = #v[0x01, 0x43, 0, 0x01, 0, 0, 0, 0, 0] ∧ t.ar = 0x00 ∧ t.br = 0x01 ∧ t.opr = 3)) = true := by
  decide

/-- P4, step 2: SETMOTORLEVELS 2, 0x11, 0x22 is accepted without the attention line. -/
theorem test_setMotorLevels : answers (step ((board false).withFetchWord 24 0x91122)) (fun t =>
    decide (t.mot1 = ⟨0x00, 0x11⟩ ∧ t.mot2 = ⟨0x00, 0x22⟩ ∧ t.statusPort = 0x0#4)) = true := by decide

/-- P4, step 7: dropped while busy. -/
theorem test_setMotorLevels_busy :
    answers (step ((during .poll .attWait 0 0 0 3 (board false)).withFetchWord 24 0x8AABB)) (fun t =>
      decide (t.mot1 = ⟨0x00, 0x00⟩ ∧ t.statusPort = 0x9#4 ∧ t.seq.w = 2)) = true := by decide

/-- P4, step 4: a reserved code for pad 2 sets only `ERR_OP`. -/
theorem test_reserved_code : answers (step ((board false).withFetchWord 24 0x10000)) (fun t =>
    decide (t.statusPort = 0x4#4)) = true := by decide

/-- R170: `CUR[0][3]` 0x7F, LEFT is down; 0xFF, it is not. -/
theorem test_isDown : reports (step ((frames 3 0x7F 0 (board false)).withFetchWord 8 0x07)) 0x01 = true := by decide

theorem test_isDown_not : reports (step ((frames 3 0xFF 0 (board false)).withFetchWord 8 0x07)) 0x00 = true := by
  decide

/-- R171: `PREV[0][3]` 0x80, `CUR[0][3]` 0x7F: LEFT is pressed, DOWN is not. -/
theorem test_pressed : reports (step ((frames 3 0x7F 0x80 (board false)).withFetchWord 8 0x27)) 0x01 = true := by decide

theorem test_pressed_not : reports (step ((frames 3 0x7F 0x80 (board false)).withFetchWord 8 0x26)) 0x00 = true := by
  decide

/-- R172: `PREV[0][3]` 0x80, `CUR[0][3]` 0xFF: LEFT is released. -/
theorem test_released : reports (step ((frames 3 0xFF 0x80 (board false)).withFetchWord 8 0x47)) 0x01 = true := by
  decide

/-- P3: CROSS is not released (byte 4, 0xBF held, changed 0x40). -/
theorem test_released_not : reports (step ((frames 4 0xBF 0x40 (board false)).withFetchWord 8 0x4E)) 0x00 = true := by
  decide

/-- R173: LY is byte 8. -/
theorem test_axis : reports (step ((frames 8 0xFF 0 (board false)).withFetchWord 8 0x63)) 0xFF = true := by decide

/-- R173: RX is byte 5. -/
theorem test_axis_rx : reports (step ((frames 5 0x80 0 (board false)).withFetchWord 8 0x60)) 0x80 = true := by decide

/-- R174: 0x73 is analog, 0xF3 is not. -/
theorem test_isAnalog : reports (step ((frames 1 0x73 0 (board false)).withFetchWord 8 0x80)) 0x01 = true := by decide

theorem test_isAnalog_not : reports (step ((frames 1 0xF3 0 (board false)).withFetchWord 8 0x80)) 0x00 = true := by
  decide

/-- R175: 0x41 is digital, 0xFF is not. -/
theorem test_isDigital : reports (step ((frames 1 0x41 0 (board false)).withFetchWord 8 0xA0)) 0x01 = true := by decide

theorem test_isDigital_not : reports (step ((frames 1 0xFF 0 (board false)).withFetchWord 8 0xA0)) 0x00 = true := by
  decide

/-- V11. -/
theorem test_pollCmd : answers (step ((board false).withFetchWord 72 0x014200FF8000000000)) (fun t =>
    decide (t.cbuf = #v[0x01, 0x42, 0, 0xFF, 0x80, 0, 0, 0, 0] ∧ t.lAtt1 = false ∧ t.seq.ph = .attWait)) = true := by
  decide

/-- V12. -/
theorem test_enterCfg : answers (step ((board false).withFetchWord 72 0x014300010000000000)) (fun t =>
    decide (t.cbuf = #v[0x01, 0x43, 0, 0x01, 0, 0, 0, 0, 0] ∧ t.seq.t = 0)) = true := by decide

/-- V13. -/
theorem test_exitCfg : answers (step ((board false).withFetchWord 72 0x014300005A5A5A5A5A)) (fun t =>
    decide (t.cbuf = #v[0x01, 0x43, 0, 0, 0x5A, 0x5A, 0x5A, 0x5A, 0x5A] ∧ t.seq.t = 2)) = true := by decide

/-- V14. -/
theorem test_setModeCmd : answers (step ((board false).withFetchWord 72 0x014400010300000000)) (fun t =>
    decide (t.cbuf = #v[0x01, 0x44, 0, 0x01, 0x03, 0, 0, 0, 0] ∧ t.seq.t = 1)) = true := by decide

/-- V15. -/
theorem test_enMotorsCmd : answers (step ((board false).withFetchWord 72 0x014D000001FFFFFFFF)) (fun t =>
    decide (t.cbuf = #v[0x01, 0x4D, 0, 0, 0x01, 0xFF, 0xFF, 0xFF, 0xFF] ∧ t.seq.t = 1)) = true := by decide

/-! ### The sequencer and the line-event level -/

/-- V40, edge t+3: byte 0 starts, `CMD` is bit 0 of 0x01. -/
theorem test_start_byte : answers (clockEdge (quiet true)
    { during .poll .attWait 0 0 0 1 (board false) with cbuf := #v[0x01, 0x42, 0, 0, 0, 0, 0, 0, 0] }) (fun t =>
      decide (t.seq = ⟨.clkLow, 0, 0, 0, 1⟩ ∧ t.lClk = false ∧ t.lCmd = true ∧ t.txsr = 0x00)) = true := by decide

/-- V40, edges t+4 and t+6: the sample enters at the top. -/
theorem test_capture : answers (clockEdge (quiet true) { during .poll .clkLow 0 0 1 1 (board false) with rxsr := 0x80 })
    (fun t => decide (t.seq = ⟨.clkHigh, 0, 0, 1, 1⟩ ∧ t.lClk = true ∧ t.rxsr = 0xC0)) = true := by decide

/-- V40, edge t+37: the byte is stored. -/
theorem test_store_byte : answers (clockEdge (quiet true) { during .poll .clkHigh 0 1 7 1 (board false) with rxsr := 0x73 })
    (fun t => decide (t.seq = ⟨.ackWait, 0, 1, 7, 2⟩ ∧ t.read (.resp 1) = 0x73)) = true := by decide

/-- V40, edge t+165: attention rises. -/
theorem test_release : answers (clockEdge (quiet true) { during .poll .ackWait 0 8 7 1 (board false) with lAtt1 := false })
    (fun t => decide (t.seq = ⟨.interWait, 0, 8, 7, 2⟩ ∧ t.lAtt1 = true)) = true := by decide

/-- V27 at the completion edge: `CUR[0][3]` 0x7F saved, response 0xEF: change mask 0x90, `DONE`. -/
theorem test_complete : answers (clockEdge (quiet true)
    ((frames 3 0x7F 0x7F (during .poll .interWait 0 8 7 1 (board false))).write (.resp 3) 0xEF)) (fun t =>
      decide (t.read (.cur .pad1 3) = 0xEF ∧ t.read (.prev .pad1 3) = 0x90 ∧ t.done = true ∧ t.busy = false)) = true := by
  decide

/-- V1. -/
theorem test_xferByte : (xferByte 0x42 0x73 (board false)).1.rxsr = 0x73 ∧
    (xferByte 0x42 0x73 (board false)).2.cmdLevels = [false, true, false, false, false, false, true, false] ∧
    (xferByte 0x42 0x73 (board false)).2.length = 48 := by decide

/-- V41. -/
theorem test_durations : txnTicks ⟨3, 2, 1, 2⟩ = 167 ∧ txnTicks ⟨5, 7, 3, 4⟩ = 480 ∧ txnTicks ⟨1, 1, 1, 1⟩ = 155 := by
  decide

/-- P5, edge 200: reset in the middle of an operation. -/
theorem test_reset_edge : answers (clockEdge (resetting ⟨false, false, false⟩)
    { during .setMode .clkLow 1 3 2 1 (board false) with lAtt1 := false, mot1 := ⟨0xFF, 0⟩ }) (fun t =>
      decide (t.lAtt1 = true ∧ t.mot1 = ⟨0, 0⟩ ∧ t.statusPort = 0x0#4)) = true := by decide

/-- From reset itself, a word of each format runs. -/
theorem test_from_reset :
    answers (step (State.reset.withFetchWord 24 0x20000)) (fun t => t.busy) = true ∧
    answers (step (State.reset.withFetchWord 24 0x80000)) (fun t => !t.busy) = true ∧
    reports (step (State.reset.withFetchWord 8 0x00)) 0x01 = true ∧
    answers (step (State.reset.withFetchWord 72 0x014200000000000000)) (fun t => t.busy) = true := by decide

/-! ### Witnesses: for each statement with hypotheses, a concrete case that meets them -/

/-- A busy engine in each role of a statement about one. -/
def running : State := during .poll .clkHigh 0 4 3 1 (board true)

/-- `board true` with one edge to come that offers the word. -/
def offered (hc : BitVec 20) : State := { board true with env := ⟨[.edge (offering hc)], 0, 0⟩ }

theorem witness_EncodeThenDecode : (Instr.axis .pad2 3).wellFormed = true ∧ (Instr.isDown .pad1 15).wellFormed = true ∧
    (Instr.enMotorsCmd 0xFF 0x00).wellFormed = true := by decide

theorem witness_DecodedWord : decode (.hostCmd 0x9FFFF) = .ok (.setMotorLevels .pad2 0xFF 0xFF) := by rfl

theorem witness_DecoderFollowsTable_ok : decode (.query 0x73) = .ok (.axis .pad2 3) := by rfl

theorem witness_DecoderFollowsTable_error : decode (.query 0x74) = .error (.reservedAxisSelector 4) := by rfl

/-- ReservedCodesRejectedExactly, one word for each clause, at the ends of the ranges. -/
theorem witness_ReservedCodes : hostOp 0x00000 = 0 ∧ hostOp 0x1FFFF = 0 ∧ hostOp 0xA0000 = 5 ∧ hostOp 0xFFFFF = 7 ∧
    queryOp 0xC0 = 6 ∧ queryOp 0xFF = 7 ∧ queryOp 0x64 = 3 ∧ 4 ≤ (querySel 0x64).toNat ∧ queryOp 0x7F = 3 ∧
    4 ≤ (querySel 0x7F).toNat := by decide

/-- The class of R103 and the reserved field each of those words is rejected under. -/
theorem test_reserved_names : decodeHostCmd 0xFFFFF = .error (.reservedHostOp 7) ∧
    decodeQuery 0xC0 = .error (.reservedQueryOp 6) ∧ decodeQuery 0x64 = .error (.reservedAxisSelector 4) :=
  ⟨rfl, rfl, rfl⟩

theorem witness_StepRunsOffered : (offered 0x50103).env.stim = [.edge (offering 0x50103)] ∧
    Offers (offering 0x50103) (.setMode .pad2 0x01 0x03) := ⟨rfl, rfl, rfl, rfl⟩

theorem witness_StepRunsQuery : ({ board true with env := ⟨[.query 0x0F], 0, 0⟩ } : State).env.stim = [.query 0x0F] ∧
    decodeQuery 0x0F = .ok (.isDown .pad1 15) := ⟨rfl, rfl⟩

theorem witness_SequencerRuns_accept : (board true).seq.ph = .idle ∧ (Pad.pad2 = .pad2 → (board true).cfg.hasAtt2 = true) := by
  decide

theorem witness_SequencerRuns_middle : (during .setMode .interWait 0 8 7 1 (board true)).seq.ph = .interWait ∧
    (during .setMode .interWait 0 8 7 1 (board true)).seq.w = 1 ∧
    (during .setMode .interWait 0 8 7 1 (board true)).opr = 2 ∧
    (during .setMode .interWait 0 8 7 1 (board true)).seq.t = 0 ∧
    (during .enMotors .interWait 0 8 7 1 (board true)).opr = 3 := by decide

theorem witness_SequencerRuns_exit : (during .enMotors .interWait 1 8 7 1 (board true)).seq.w = 1 ∧
    (during .enMotors .interWait 1 8 7 1 (board true)).opr = 3 ∧
    (during .enMotors .interWait 1 8 7 1 (board true)).seq.t = 1 := by decide

theorem witness_RunOverListedEdges :
    ({ board true with env := ⟨[.edge (quiet true), .edge (offering 0), .query 0x00], 0, 0⟩ } : State).env.stim =
      [quiet true, offering 0].map .edge ++ [.query 0x00] := rfl

theorem witness_ResetValues_axis : (3#4).toNat < 4 := by decide

theorem witness_ResetEdge :
    ({ running with env := ⟨[.edge (resetting ⟨true, true, true⟩)], 0, 0⟩ } : State).env.stim =
      [.edge (resetting ⟨true, true, true⟩)] ∧ (resetting ⟨true, true, true⟩).rst = true := ⟨rfl, rfl⟩

/-- PollAccepted and BracketAccepted, for either pad. -/
theorem witness_Accepted : (board true).seq.ph = .idle ∧ (Pad.pad2 = .pad2 → (board true).cfg.hasAtt2 = true) ∧
    (board false).seq.ph = .idle ∧ (Pad.pad1 = .pad2 → (board false).cfg.hasAtt2 = true) := by decide

theorem witness_MotorLevelsWritten : (board false).seq.ph = .idle ∧ running.seq.ph ≠ .idle := by decide

theorem witness_PollAfterMotorLevels : (board true).seq.ph = .idle ∧ (Pad.pad2 = .pad2 → (board true).cfg.hasAtt2 = true) ∧
    Offers (offering 0x9FF80) (.setMotorLevels .pad2 0xFF 0x80) ∧ Offers (offering 0x30000) (.poll .pad2 0x00 0x00) :=
  ⟨rfl, fun _ => rfl, ⟨rfl, rfl, rfl⟩, rfl, rfl, rfl⟩

theorem witness_PadTwoWithoutLine : (board false).seq.ph = .idle ∧ (board false).cfg.hasAtt2 = false ∧
    Offers (offering 0x30000) (.poll .pad2 0x00 0x00) ∧ Offers (offering 0x50103) (.setMode .pad2 0x01 0x03) ∧
    Offers (offering 0x70001) (.enMotors .pad2 0x00 0x01) :=
  ⟨rfl, rfl, ⟨rfl, rfl, rfl⟩, ⟨rfl, rfl, rfl⟩, rfl, rfl, rfl⟩

theorem witness_ReservedCode : (board false).seq.ph = .idle ∧ (offering 0x1FFFF).rst = false ∧
    (offering 0x1FFFF).cmdValid = true ∧ hostOp (offering 0x1FFFF).hc = 0 ∧ hostOp (offering 0xA0000).hc = 5 ∧
    hostOp (offering 0xC0000).hc = 6 ∧ hostOp (offering 0xFFFFF).hc = 7 := by decide

theorem witness_OfferWhileBusy : running.seq.ph ≠ .idle ∧ (offering 0x8AABB).rst = false ∧
    (offering 0x8AABB).cmdValid = true := by decide

theorem witness_FlagsSticky : ∃ t, step { offered 0x20000 with err := ⟨true, true, true⟩ } = .next t ∧
    ¬ ResetsNext { offered 0x20000 with err := ⟨true, true, true⟩ } ∧
    ({ offered 0x20000 with err := ⟨true, true, true⟩ } : State).err = ⟨true, true, true⟩ := by
  refine ⟨_, rfl, ?_, rfl⟩
  rintro ⟨inp, rest, h, hr⟩
  cases h
  cases hr

/-- An accepted operation, one rejected with `ERR_CFG` and one with `ERR_OVR`. -/
theorem witness_StartingOperationFrame : (∃ t, exec (.poll .pad2 0 0) (board true) = .next t) ∧
    (∃ t, exec (.setMode .pad2 0 0) (board false) = .next t) ∧ (∃ t, exec (.enMotors .pad1 0 0) running = .next t) :=
  ⟨⟨_, rfl⟩, ⟨_, rfl⟩, ⟨_, rfl⟩⟩

theorem witness_MotorLevelsFrame : (∃ t, exec (.setMotorLevels .pad2 0xFF 0x80) (board false) = .next t) ∧
    ∃ t, exec (.setMotorLevels .pad1 0xFF 0x80) running = .next t := ⟨⟨_, rfl⟩, ⟨_, rfl⟩⟩

/-- WireCommandStartsTransaction and WireCommandFrame, for each of the five. -/
theorem witness_WireCommand : (∃ f, encode (.pollCmd 0xFF 0x80) = .wireCmd f) ∧ (∃ f, encode .enterCfg = .wireCmd f) ∧
    (∃ f, encode .exitCfg = .wireCmd f) ∧ (∃ f, encode (.setModeCmd 0x01 0x03) = .wireCmd f) ∧
    (∃ f, encode (.enMotorsCmd 0x00 0x01) = .wireCmd f) ∧
    ({ board true with padr := .pad2 } : State).cfg.hasAtt2 = true ∧
    ∃ t, exec .exitCfg { board true with padr := .pad2 } = .next t :=
  ⟨⟨_, rfl⟩, ⟨_, rfl⟩, ⟨_, rfl⟩, ⟨_, rfl⟩, ⟨_, rfl⟩, rfl, _, rfl⟩

theorem witness_NoTransactionWithoutAttentionLine : (∃ f, encode .enterCfg = .wireCmd f) ∧
    ({ board false with padr := .pad2 } : State).padr = .pad2 ∧
    ({ board false with padr := .pad2 } : State).cfg.hasAtt2 = false := ⟨⟨_, rfl⟩, rfl, rfl⟩

theorem witness_TransactionTraceShape : Pad.pad2 ≠ .pad1 := by decide

theorem witness_LineLevelRealises : Pad.pad2 = .pad2 → (board true).cfg.hasAtt2 = true := by decide

theorem noReset_replicate (n : Nat) (dat : Bool) : NoReset (List.replicate n (quiet dat)) := by
  intro e he
  rw [List.eq_of_mem_replicate he]
  rfl

/-- PollRunsAsItsEvents, and the POLL clause of OperationsTakeArchitecturalEffect. -/
theorem witness_PollRuns : (board true).seq.ph = .idle ∧ (board true).tp.positive ∧
    (Pad.pad2 = .pad2 → (board true).cfg.hasAtt2 = true) ∧ Offers (offering 0x30000) (.poll .pad2 0x00 0x00) ∧
    NoReset (List.replicate 167 (quiet true)) ∧ (List.replicate 167 (quiet true)).length = txnTicks (board true).tp :=
  ⟨rfl, by decide, fun _ => rfl, ⟨rfl, rfl, rfl⟩, noReset_replicate _ _, by rw [List.length_replicate]; decide⟩

/-- BracketRunsAsItsEvents, and the other clause of OperationsTakeArchitecturalEffect. -/
theorem witness_BracketRuns : (board true).seq.ph = .idle ∧ (board true).tp.positive ∧
    NoReset (List.replicate 501 (quiet true)) ∧
    (List.replicate 501 (quiet true)).length = 3 * txnTicks (board true).tp ∧
    Offers (offering 0x50103) (.setMode .pad2 0x01 0x03) ∧ Offers (offering 0x60001) (.enMotors .pad1 0x00 0x01) :=
  ⟨rfl, by decide, noReset_replicate _ _, by rw [List.length_replicate]; decide, ⟨rfl, rfl, rfl⟩, rfl, rfl, rfl⟩

theorem witness_PollStaysBusy : Offers (offering 0x20000) (.poll .pad1 0x00 0x00) ∧
    NoReset (List.replicate 166 (quiet true)) ∧ (List.replicate 166 (quiet true)).length < txnTicks (board true).tp :=
  ⟨⟨rfl, rfl, rfl⟩, noReset_replicate _ _, by rw [List.length_replicate]; decide⟩

/-- The last edge before the completion of the bracket. -/
theorem witness_BracketStaysBusy : (board true).seq.ph = .idle ∧ (board true).tp.positive ∧
    (Pad.pad2 = .pad2 → (board true).cfg.hasAtt2 = true) ∧ Offers (offering 0x50103) (.setMode .pad2 0x01 0x03) ∧
    Offers (offering 0x60001) (.enMotors .pad1 0x00 0x01) ∧ NoReset (List.replicate 500 (quiet true)) ∧
    (List.replicate 500 (quiet true)).length < 3 * txnTicks (board true).tp :=
  ⟨rfl, by decide, fun _ => rfl, ⟨rfl, rfl, rfl⟩, ⟨rfl, rfl, rfl⟩, noReset_replicate _ _,
    by rw [List.length_replicate]; decide⟩

/-- ChangeMaskLaws: a transition from 1 to 0 of button 15, and a second response with the same bit. -/
theorem witness_ChangeMask : (frames 4 0xFF 0x00 (board true)).seq.ph = .idle ∧
    ((frames 4 0xFF 0x00 (board true)).cur.get .pad1)[buttonIndex 15].getLsbD 7 = true ∧
    (Vector.replicate 9 0x7F : Frame)[buttonIndex 15].getLsbD 7 = false := by decide

/-- ButtonQueriesAnswer, ModeQueriesAnswer. -/
theorem witness_IdleQueries : (board true).seq.ph = .idle := by decide

theorem witness_AxisQuery : (board true).seq.ph = .idle ∧ (3#4).toNat < 4 ∧ 4 ≤ (4#4).toNat ∧ 4 ≤ (15#4).toNat := by
  decide

theorem witness_QueriesChangeNoState : encode (.axis .pad2 15) = .query 0x7F ∧ encode (.isDigital .pad1 0) = .query 0xA0 :=
  ⟨rfl, rfl⟩

theorem witness_QueryWhileBusy : encode (.pressed .pad1 7) = .query 0x27 ∧ running.seq.ph ≠ .idle ∧
    encode (.axis .pad1 4) = .query 0x64 ∧ (Instr.axis .pad1 4).wellFormed = false :=
  ⟨rfl, by decide, rfl, by decide⟩

/-- The clauses about the port: a reserved code and a reserved selector read at idle. -/
theorem witness_ReservedQueryWords : (board true).seq.ph = .idle ∧ queryOp 0xC0 = 6 ∧ queryOp 0xE0 = 7 ∧
    queryOp 0x64 = 3 ∧ 4 ≤ (querySel 0x64).toNat ∧
    answers (readQuery 0xE0 (board true)) (fun t => t.env.freeCount == 1) = true := by decide

/-- DecoderProperties: PRESSED true, RELEASED true, ISANALOG true, and a query asked in an idle state. -/
theorem witness_DecoderProperties :
    reports (exec (.pressed .pad1 7) (frames 3 0x7F 0x80 (board true))) 0x01 = true ∧
    reports (exec (.released .pad1 7) (frames 3 0xFF 0x80 (board true))) 0x01 = true ∧
    reports (exec (.isAnalog .pad1 0) (frames 1 0x73 0 (board true))) 0x01 = true ∧
    encode (.axis .pad1 3) = .query 0x63 ∧ (Instr.axis .pad1 3).wellFormed = true ∧ (board true).seq.ph = .idle ∧
    ∃ t, exec (.axis .pad1 3) (board true) = .next t :=
  ⟨by decide, by decide, by decide, rfl, by decide, rfl, _, rfl⟩

/-- Both rows: an idle engine just after a completion, and a busy one. -/
theorem witness_WaitRows : ({ board true with done := true } : State).seq.ph = .idle ∧
    (during .poll .attWait 0 0 0 2 (board true)).seq.ph ≠ .idle ∧
    1 < (during .poll .attWait 0 0 0 2 (board true)).seq.w ∧ (quiet true).rst = false ∧
    (quiet true).cmdValid = false := by decide

/-- One state for each clause, at both ends of the bit and the byte counters. -/
theorem witness_ByteRows : (during .poll .attWait 0 0 0 1 (board true)).seq = ⟨.attWait, 0, 0, 0, 1⟩ ∧
    (during .poll .clkLow 0 8 7 1 (board true)).seq = ⟨.clkLow, 0, 8, 7, 1⟩ ∧
    (during .poll .clkHigh 0 0 6 1 (board true)).seq.k.val < 7 ∧
    (during .poll .clkHigh 0 0 7 1 (board true)).seq.k.val = 7 ∧
    (during .poll .ackWait 0 7 7 1 (board true)).seq.i.val < 8 ∧
    (during .poll .ackWait 0 8 7 1 (board true)).seq.i.val = 8 := by decide

theorem witness_CompletionRows : (during .poll .interWait 0 8 7 1 (board true)).seq = ⟨.interWait, 0, 8, 7, 1⟩ ∧
    (during .poll .interWait 0 8 7 1 (board true)).opr = 1 ∧
    (during .setMode .interWait 2 8 7 1 (board true)).opr = 2 ∧
    (during .enMotors .interWait 2 8 7 1 (board true)).opr = 3 ∧
    (during .enMotors .interWait 2 8 7 1 (board true)).seq.t = 2 := by decide

/-- An edge that ends an operation, and one that resets. -/
theorem witness_Done : answers (clockEdge (quiet true) (during .setMode .interWait 2 8 7 1 (board true)))
      (fun t => t.done) = true ∧
    answers (clockEdge (resetting ⟨true, true, true⟩) running) (fun t => !t.done) = true ∧
    ∃ t, readQuery 0xFF running = .next t := ⟨by decide, by decide, _, rfl⟩

theorem running_seqInv : SeqInv running := ⟨by decide, fun _ => ⟨by decide, by decide, ⟨.poll, by decide⟩, by decide⟩⟩

theorem witness_LinkInvariant : LinesFollowPhase { running with lAtt1 := false } ∧
    ∃ t, step { running with lAtt1 := false } = .next t := ⟨by decide, _, rfl⟩

theorem witness_AbsentPadTwo : SeqInv (board false) ∧ AbsentPad2Untouched (board false) ∧
    (board false).cfg.hasAtt2 = false ∧ ∃ t, step (board false) = .next t :=
  ⟨⟨by decide, fun h => absurd rfl h⟩, fun _ => ⟨rfl, rfl, rfl⟩, rfl, _, rfl⟩

/-- ConfigurationFixedAtReset. -/
theorem witness_Configuration : (∃ t, step (offered 0x20000) = .next t) ∧ ¬ ResetsNext (offered 0x20000) ∧
    State.reset.tp = Config.profile State.reset.cfg.platform ∧ ∃ t, step State.reset = .next t := by
  refine ⟨⟨_, rfl⟩, ?_, rfl, _, rfl⟩
  rintro ⟨inp, rest, h, hr⟩
  cases h
  cases hr

/-- The completion of a POLL whose response differs from `CUR[0]`, and from `PREV[0]` in byte 3. -/
theorem witness_FramesWritten :
    answers (step ((during .poll .interWait 0 8 7 1 (board true)).write (.resp 3) 0xEF)) (fun t =>
      decide (t.cur.get .pad1 ≠ (board true).cur.get .pad1 ∧ t.prev.get .pad1 ≠ (board true).prev.get .pad1)) = true ∧
    ¬ ResetsNext ((during .poll .interWait 0 8 7 1 (board true)).write (.resp 3) 0xEF) := by
  refine ⟨by decide, ?_⟩
  rintro ⟨inp, rest, h, -⟩
  cases h

/-- The acceptance of a POLL that changes `PREV[0]`. -/
theorem witness_PreviousAtAcceptance :
    answers (step ((frames 3 0xFF 0x00 (board true)).withFetchWord 24 0x20000)) (fun t =>
      decide (t.prev.get .pad1 ≠ (frames 3 0xFF 0x00 (board true)).prev.get .pad1)) = true := by decide

theorem witness_MotorLevelsOnly : answers (step (offered 0x8FF80)) (fun t =>
    decide (t.mot1.get .pad1 ≠ (offered 0x8FF80).mot1.get .pad1)) = true := by decide

/-- Two engines with different buffers and different operands on the port. -/
theorem witness_SameControl : SameControl running (running.write (.cur .pad1 3) 0xFF) ∧
    SameControlInputs (offering 0x40103) (offering 0x40FFF) := by decide

theorem witness_AcknowledgeNeverRead : (quiet true).rst = false := by decide

end Sys2Proof.Tests
end

section
/-! PROOFS. The state (spec/10_state.md): the reset values of R39 with what the queries answer then, and the completion
pulse `DONE` of R34. -/

namespace Sys2Proof.Machine

/-! ### The reset state (R39) -/

section Reset

variable (straps : Straps) (env : Env)

@[simp] theorem resetWith_ph : (State.resetWith straps env).seq.ph = .idle := rfl

@[simp] theorem resetWith_done : (State.resetWith straps env).done = false := rfl

@[simp] theorem resetWith_cur (p : Pad) : (State.resetWith straps env).cur.get p = Vector.replicate 9 0 := by
  cases p <;> rfl

@[simp] theorem resetWith_prev (p : Pad) : (State.resetWith straps env).prev.get p = Vector.replicate 9 0 := by
  cases p <;> rfl

/-- Not busy, and no flag set (R31, R43). -/
theorem resetWith_statusPort : (State.resetWith straps env).statusPort = 0b0000#4 := by
  have hb : (State.resetWith straps env).busy = false := by simp
  have he : (State.resetWith straps env).err = ⟨false, false, false⟩ := rfl
  rw [State.statusPort, hb, he]; decide

/-- Every byte of every store is 0. -/
theorem resetWith_read (a : Addr) : (State.resetWith straps env).read a = 0x00 := by
  cases a with
  | cur p i => simp [State.read]
  | prev p i => simp [State.read]
  | resp i => exact Vector.getElem_replicate i.isLt
  | cbuf i => exact Vector.getElem_replicate i.isLt

end Reset

/-! ### The decoder's predicates on buffers of zeros (R170 to R175) -/

section ZeroBuffers

variable {s : State} {p : Pad} {idx : Fin 9} (mask : Byte)

theorem isDownAt_of_zero (h : (s.cur.get p)[idx] = 0) : isDownAt s p idx mask = true := by
  simp [isDownAt, h]

theorem pressedAt_of_zero (h : (s.prev.get p)[idx] = 0) : pressedAt s p idx mask = false := by
  simp [pressedAt, h]

theorem releasedAt_of_zero (h : (s.prev.get p)[idx] = 0) : releasedAt s p idx mask = false := by
  simp [releasedAt, h]

theorem modeNibble_of_zero (h : (s.cur.get p)[1] = 0) : modeNibble s p = 0 := by
  simp [modeNibble, h]

theorem modeIsAnalog_of_zero (h : (s.cur.get p)[1] = 0) : modeIsAnalog s p = false := by
  rw [modeIsAnalog, modeNibble_of_zero h]; decide

theorem modeIsDigital_of_zero (h : (s.cur.get p)[1] = 0) : modeIsDigital s p = false := by
  rw [modeIsDigital, modeNibble_of_zero h]; decide

end ZeroBuffers

/-! ### The queries of an idle engine -/

/-- The legal axis selectors (R173): bits 3:2 are 0. -/
theorem axisSelector_legal_iff (n : BitVec 4) : n.extractLsb' 2 2 = 0#2 ↔ n.toNat < 4 := by
  revert n; decide

section IdleQueries

variable {s : State} (h : s.seq.ph = .idle) (p : Pad) (n : BitVec 4)
include h

theorem exec_isDown_idle :
    exec (.isDown p n) s = .next (s.report (boolByte (isDownAt s p (buttonIndex n) (buttonMask n)))) :=
  answer_idle h

theorem exec_pressed_idle :
    exec (.pressed p n) s = .next (s.report (boolByte (pressedAt s p (buttonIndex n) (buttonMask n)))) :=
  answer_idle h

theorem exec_released_idle :
    exec (.released p n) s = .next (s.report (boolByte (releasedAt s p (buttonIndex n) (buttonMask n)))) :=
  answer_idle h

theorem exec_isAnalog_idle : exec (.isAnalog p n) s = .next (s.report (boolByte (modeIsAnalog s p))) :=
  answer_idle h

theorem exec_isDigital_idle : exec (.isDigital p n) s = .next (s.report (boolByte (modeIsDigital s p))) :=
  answer_idle h

theorem exec_axis_idle (hn : n.toNat < 4) :
    exec (.axis p n) s = .next (s.report (s.cur.get p)[axisByte (axisIndex n)]) :=
  (if_pos ((axisSelector_legal_iff n).2 hn)).trans (answer_idle h)

end IdleQueries

/-- What every query answers after reset: ISDOWN 1, every other one 0, since all the buffers are 0. -/
theorem resetWith_queries (straps : Straps) (env : Env) (p : Pad) (n : BitVec 4) :
    let s := State.resetWith straps env
    exec (.isDown p n) s = .next (s.report 0x01) ∧ exec (.pressed p n) s = .next (s.report 0x00) ∧
      exec (.released p n) s = .next (s.report 0x00) ∧ exec (.isAnalog p n) s = .next (s.report 0x00) ∧
      exec (.isDigital p n) s = .next (s.report 0x00) ∧
      (n.toNat < 4 → exec (.axis p n) s = .next (s.report 0x00)) := by
  intro s
  have hs : s.seq.ph = .idle := resetWith_ph straps env
  have hcur (i : Fin 9) : (s.cur.get p)[i] = 0 := resetWith_read straps env (.cur p i)
  have hprev (i : Fin 9) : (s.prev.get p)[i] = 0 := resetWith_read straps env (.prev p i)
  refine ⟨?_, ?_, ?_, ?_, ?_, fun hn => ?_⟩
  · rw [exec_isDown_idle hs, isDownAt_of_zero _ (hcur _)]; rfl
  · rw [exec_pressed_idle hs, pressedAt_of_zero _ (hprev _)]; rfl
  · rw [exec_released_idle hs, releasedAt_of_zero _ (hprev _)]; rfl
  · rw [exec_isAnalog_idle hs, modeIsAnalog_of_zero (hcur 1)]; rfl
  · rw [exec_isDigital_idle hs, modeIsDigital_of_zero (hcur 1)]; rfl
  · rw [exec_axis_idle hs p n hn, hcur]

/-- Settles O10: the stores by `resetWith_read`, the queries by `resetWith_queries`, the registers as
`State.resetWith` writes them. -/
theorem resetValues : Obligations.ResetValues := by
  intro straps env s
  have read (a : Addr) : s.read a = 0x00 := resetWith_read straps env a
  have motors (p : Pad) : s.mot1.get p = 0x00 ∧ s.mot2.get p = 0x00 := by cases p <;> exact ⟨rfl, rfl⟩
  exact ⟨fun p i => ⟨read _, read _⟩, motors, rfl, rfl, resetWith_statusPort straps env, fun i => ⟨read _, read _⟩,
    rfl, rfl, rfl, rfl, rfl, rfl, rfl, rfl, rfl, rfl, rfl, rfl, rfl, rfl, rfl, rfl,
    resetWith_queries straps env⟩

/-! ### What the actions do to `DONE` and to the phase -/

section Actions

variable (s : State)

@[simp] theorem startByte_done (i : Fin 9) : (startByte i s).done = s.done := rfl

@[simp] theorem captureBit_done (dat : Bool) : (captureBit dat s).done = s.done := rfl

@[simp] theorem startBit_done : (startBit s).done = s.done := rfl

@[simp] theorem endByte_done : (endByte s).done = s.done := rfl

@[simp] theorem releaseAttention_done : (releaseAttention s).done = s.done := setLine_done ..

@[simp] theorem endOperation_done (op : TxnOp) : (endOperation op s).done = true := rfl

@[simp] theorem endOperation_ph (op : TxnOp) : (endOperation op s).seq.ph = .idle := rfl

@[simp] theorem started_done (op : TxnOp) (p : Pad) (a b : Byte) : (started op p a b s).done = s.done := by
  cases op <;> rfl

end Actions

/-- `START_TXN` enters `ATT_WAIT` and leaves `DONE` alone. -/
theorem startTxn_done_ph {n : Fin 3} {s t : State} (h : startTxn n s = .next t) :
    t.done = s.done ∧ t.seq.ph = .attWait := by
  rcases startTxn_cases n s with ⟨r, hr⟩ | ⟨op, -, -, -, hn⟩
  · rw [hr] at h; cases h
  · rw [hn] at h; cases h; exact ⟨rfl, rfl⟩

/-! ### The completion pulse (R34) -/

/-- The position from which an edge of the sequencer ends an operation: the end of `INTER_WAIT` of its last
transaction (R241). -/
def AtLastTransactionEnd (op : TxnOp) (s : State) : Prop :=
  s.seq.ph = .interWait ∧ TxnOp.ofCode s.opr = some op ∧ s.seq.t = op.last

/-- An edge of the sequencer ends an operation, or it leaves `DONE` alone and does not go from `INTER_WAIT` to
`IDLE`. -/
theorem advance_ends_or_keeps_done {dat : Bool} {s t : State} (h : advance dat s = .next t) :
    (∃ op, AtLastTransactionEnd op s ∧ t = endOperation op s) ∨
    (t.done = s.done ∧ ¬ (s.seq.ph = .interWait ∧ t.seq.ph = .idle)) := by
  rcases advance_cases h with ⟨hp, rfl⟩ | ⟨hp, -, rfl⟩ | ⟨-, h⟩
  · exact .inr ⟨rfl, by simp [hp]⟩
  · exact .inr ⟨rfl, fun hi => hp hi.2⟩
  rcases h with ⟨hp, rfl⟩ | ⟨hp, rfl⟩ | ⟨hp, -, rfl⟩ | ⟨hp, -, rfl⟩ | ⟨hp, -, rfl⟩ | ⟨hp, -, rfl⟩ | ⟨hp, op, hop, h⟩
  case inr.inr.inr.inr.inr.inr =>
    rcases h with ⟨-, h⟩ | ⟨ht, rfl⟩
    · obtain ⟨hd, hph⟩ := startTxn_done_ph h
      exact .inr ⟨hd, by simp [hph]⟩
    · exact .inl ⟨op, ⟨hp, hop, ht⟩, rfl⟩
  all_goals exact .inr (by simp [hp])

/-- A clock edge ends an operation, or `DONE` is 0 after it and it did not go from `INTER_WAIT` to `IDLE` without a
reset. -/
theorem clockEdge_ends_or_done_false {inp : EdgeInputs} {s t : State} (h : clockEdge inp s = .next t) :
    (inp.rst = false ∧ (∃ op, AtLastTransactionEnd op s) ∧ t.seq.ph = .idle ∧ t.done = true) ∨
    (t.done = false ∧ ¬ (inp.rst = false ∧ s.seq.ph = .interWait ∧ t.seq.ph = .idle)) := by
  cases hr : inp.rst with
  | true =>
    rw [clockEdge_reset s hr] at h
    cases h
    exact .inr (by simp)
  | false =>
    rcases clockEdge_cases hr h with ⟨hi, ht⟩ | ⟨-, h⟩
    · have hd : t.done = false := by
        rcases ht with rfl | ⟨-, rfl | rfl | ⟨-, rfl⟩ | ⟨op, -, rfl⟩⟩ <;> simp
      exact .inr ⟨hd, by simp [hi]⟩
    · rcases advance_ends_or_keeps_done h with ⟨op, hend, rfl⟩ | ⟨hd, hn⟩
      · exact .inl ⟨rfl, ⟨op, hend⟩, rfl, rfl⟩
      · exact .inr ⟨hd, fun hc => hn hc.2⟩

/-- A reading of the query port leaves `DONE` alone (R42). -/
theorem readQuery_done {qw : BitVec 8} {s t : State} (h : readQuery qw s = .next t) : t.done = s.done := by
  rcases readQuery_cases qw s with ⟨v, hv⟩ | hv
  all_goals rw [hv] at h; cases h; rfl

/-- Settles O45, by the two things a clock edge can do: `clockEdge_ends_or_done_false`. -/
theorem donePulsesAtCompletionOnly : Obligations.DonePulsesAtCompletionOnly := by
  refine ⟨fun s t inp h => ?_, fun s t qw h => readQuery_done h, rfl⟩
  rcases clockEdge_ends_or_done_false h with ⟨hr, ⟨op, hp, hop, ht⟩, hph, hd⟩ | ⟨hd, hn⟩
  · exact ⟨iff_of_true hd ⟨hr, hp, hph⟩, fun _ => ⟨op, hop, ht⟩⟩
  · exact ⟨iff_of_false (by simp [hd]) hn, by simp [hd]⟩

end Sys2Proof.Machine
end

section
/-! PROOFS. The button decoder (spec/43_button_decoder.md): the masked predicates of R177 in the bits they read, and
what the button and mode queries answer at idle. -/

namespace Sys2Proof.Machine

/-! ### The byte and the mask of a button (R176) -/

theorem buttonIndex_eq_ite (n : BitVec 4) : buttonIndex n = if n.toNat < 8 then 3 else 4 := by
  revert n; decide

theorem buttonMask_eq_twoPow (n : BitVec 4) : buttonMask n = BitVec.twoPow 8 (n.toNat % 8) := by
  revert n; decide

theorem buttonMask_ne_zero (n : BitVec 4) : buttonMask n ≠ 0x00 := by
  revert n; decide

/-- Masking with a button's mask tests its bit. -/
theorem and_buttonMask_eq_zero_iff (x : Byte) (n : BitVec 4) :
    x &&& buttonMask n = 0x00 ↔ x.getLsbD (n.toNat % 8) = false := by
  have hmask : BitVec.twoPow 8 (n.toNat % 8) ≠ 0x00 := buttonMask_eq_twoPow n ▸ buttonMask_ne_zero n
  rw [buttonMask_eq_twoPow, BitVec.and_twoPow]
  cases x.getLsbD (n.toNat % 8) with
  | false => exact iff_of_true rfl rfl
  | true => exact iff_of_false hmask Bool.noConfusion

theorem and_buttonMask_beq_zero (x : Byte) (n : BitVec 4) :
    (x &&& buttonMask n == 0) = !x.getLsbD (n.toNat % 8) := by
  rw [Bool.eq_iff_iff, beq_iff_eq, Bool.not_eq_true']
  exact and_buttonMask_eq_zero_iff x n

/-! ### The decoder's predicates, bit by bit (R177, R174, R175) -/

section Predicates

variable (s : State) (p : Pad) (idx : Fin 9) (n : BitVec 4)

theorem isDownAt_buttonMask :
    isDownAt s p idx (buttonMask n) = !(s.cur.get p)[idx].getLsbD (n.toNat % 8) :=
  and_buttonMask_beq_zero _ n

theorem pressedAt_buttonMask :
    pressedAt s p idx (buttonMask n) =
      ((s.prev.get p)[idx].getLsbD (n.toNat % 8) && !(s.cur.get p)[idx].getLsbD (n.toNat % 8)) := by
  simp only [pressedAt, bne, and_buttonMask_beq_zero, Bool.not_not]

theorem releasedAt_buttonMask :
    releasedAt s p idx (buttonMask n) =
      ((s.prev.get p)[idx].getLsbD (n.toNat % 8) && (s.cur.get p)[idx].getLsbD (n.toNat % 8)) := by
  simp only [releasedAt, bne, and_buttonMask_beq_zero, Bool.not_not]

theorem modeNibble_toNat : (modeNibble s p).toNat = (s.cur.get p)[1].toNat / 16 := by
  have := (s.cur.get p)[1].isLt
  rw [modeNibble, BitVec.extractLsb'_toNat, Nat.shiftRight_eq_div_pow]
  omega

theorem modeNibble_beq (k : BitVec 4) :
    (modeNibble s p == k) = decide ((s.cur.get p)[1].toNat / 16 = k.toNat) := by
  rw [Bool.eq_iff_iff, beq_iff_eq, decide_eq_true_iff, ← modeNibble_toNat, BitVec.toNat_inj]

theorem modeIsAnalog_eq_decide : modeIsAnalog s p = decide ((s.cur.get p)[1].toNat / 16 = 7) :=
  modeNibble_beq s p nibbleAnalog

theorem modeIsDigital_eq_decide : modeIsDigital s p = decide ((s.cur.get p)[1].toNat / 16 = 4) :=
  modeNibble_beq s p nibbleDigital

end Predicates

theorem boolByte_decide (P : Prop) [Decidable P] : boolByte (decide P) = if P then 0x01 else 0x00 := by
  simp [boolByte]

/-! ### The statements -/

/-- Settles O36, by the masked predicates' bits: `isDownAt_buttonMask`, `pressedAt_buttonMask`,
`releasedAt_buttonMask`. -/
theorem buttonQueriesAnswer : Obligations.ButtonQueriesAnswer := by
  intro s p n h idx held changed
  have hidx : buttonIndex n = idx := buttonIndex_eq_ite n
  refine ⟨?_, ?_, ?_⟩
  · rw [exec_isDown_idle h, hidx, isDownAt_buttonMask]; rfl
  · rw [exec_pressed_idle h, hidx, pressedAt_buttonMask]; rfl
  · have hup : (s.cur.get p)[idx].getLsbD (n.toNat % 8) = !held := (Bool.not_not _).symm
    rw [exec_released_idle h, hidx, releasedAt_buttonMask, hup]; rfl

/-- Settles O38, by `modeNibble_toNat`: the nibble is the byte's quotient by 16. -/
theorem modeQueriesAnswer : Obligations.ModeQueriesAnswer := by
  intro s p sel h nibble
  constructor
  · rw [exec_isAnalog_idle h, modeIsAnalog_eq_decide, boolByte_decide]
  · rw [exec_isDigital_idle h, modeIsDigital_eq_decide, boolByte_decide]

end Sys2Proof.Machine
end

section
/-! PROOFS. The three error conditions (spec/60_exceptions.md R192 to R194): at idle a rejected offer only sets its
flag, and while busy an offer sets `ERR_OVR` beside an operation that goes on undisturbed. -/

namespace Sys2Proof.Machine

open Sys2Proof.Safety

/-! ### ERR_OVR: the sequencer does not read the flags (R194) -/

/-- Setting `ERR_OVR` before an edge of the sequencer is setting it after: `advance_aside`, where the edge keeps all
that `aside` replaces (`advance_keeps`). -/
theorem advance_raise_errOvr (dat : Bool) (s : State) :
    advance dat (s.raise .errOvr) = andThen (advance dat s) fun t => .next (t.raise .errOvr) := by
  have haside : advance dat (s.raise .errOvr) = andThen (advance dat s) fun t =>
      .next (aside { s.err with errOvr := true } s.cfg.hasAck s.env t) := advance_aside _ _ _ dat s
  rw [haside]
  cases h : advance dat s with
  | fault r => rfl
  | refused r => rfl
  | next t =>
    obtain ⟨-, -, hcfg, -, herr, -, -, -, -, henv⟩ := advance_keeps h
    simp only [andThen_next, aside, State.raise, ← hcfg, ← herr, ← henv]

theorem clockEdge_busy_noOffer {inp : EdgeInputs} {s : State} (hr : inp.rst = false) (hb : s.seq.ph ≠ .idle)
    (hv : inp.cmdValid = false) : clockEdge inp s = advance inp.dat { s with done := false } := by
  simp only [clockEdge_busy hr hb, hv, Bool.or_false]

theorem clockEdge_busy_offer {inp : EdgeInputs} {s : State} (hr : inp.rst = false) (hb : s.seq.ph ≠ .idle)
    (hv : inp.cmdValid = true) :
    clockEdge inp s = advance inp.dat (State.raise { s with done := false } .errOvr) := by
  simp only [clockEdge_busy hr hb, hv, Bool.or_true, State.raise]

/-- Settles O18: the offer adds `ERR_OVR` before the sequencer's edge (`clockEdge_busy_offer`), which is the same as
after it (`advance_raise_errOvr`). -/
theorem offerWhileBusyOnlySetsErrOvr : Obligations.OfferWhileBusyOnlySetsErrOvr := by
  intro s inp hb hr hv
  have hquiet : clockEdge { inp with cmdValid := false } s = advance inp.dat { s with done := false } :=
    clockEdge_busy_noOffer hr hb rfl
  rw [clockEdge_busy_offer hr hb hv, hquiet]
  exact advance_raise_errOvr inp.dat _

/-! ### ERR_CFG: pad 2 without its attention line (R192) -/

/-- At idle the edge that offers an instruction executes it, with `DONE` 0. -/
theorem clockEdge_idle_offers {inp : EdgeInputs} {i : Instr} {s : State} (hi : s.seq.ph = .idle)
    (h : Offers inp i) : clockEdge inp s = exec i { s with done := false } := by
  obtain ⟨hr, hv, hd⟩ := h
  rw [clockEdge_idle hr hi, if_pos hv, offer, hd]

theorem exec_start_noLine {op : TxnOp} {a b : Byte} {s : State} (hi : s.seq.ph = .idle)
    (h2 : s.cfg.hasAtt2 = false) : exec (startInstr op .pad2 a b) s = .next (s.raise .errCfg) := by
  rw [exec_startInstr, accept_noLine hi h2]

/-- Settles O16: the three operations are `startInstr` of a `TxnOp`, which `exec_start_noLine` rejects, in `s` and in
`s` with `DONE` 0. -/
theorem padTwoWithoutLineSetsErrCfg : Obligations.PadTwoWithoutLineSetsErrCfg := by
  intro s inp i a b hi h2 hop
  obtain ⟨op, rfl⟩ : ∃ op, i = startInstr op .pad2 a b := by
    rcases hop with rfl | rfl | rfl
    · exact ⟨.poll, rfl⟩
    · exact ⟨.setMode, rfl⟩
    · exact ⟨.enMotors, rfl⟩
  refine ⟨exec_start_noLine hi h2, fun ho => ?_⟩
  rw [clockEdge_idle_offers hi ho]
  exact exec_start_noLine hi h2

/-! ### ERR_OP: a reserved operation code (R193) -/

theorem decodeHostCmd_reserved {hc : BitVec 20} (h : hostOp hc = 0 ∨ hostOp hc = 5 ∨ hostOp hc = 6 ∨ hostOp hc = 7) :
    decodeHostCmd hc = .error (.reservedHostOp (hostOp hc)) := by
  rcases decodeHostCmd_cases hc with ⟨ho, -⟩ | ⟨ho, -⟩ | ⟨ho, -⟩ | ⟨ho, -⟩ | ⟨-, hd⟩
  case inr.inr.inr.inr => exact hd
  all_goals exact absurd h (by rw [ho]; decide)

theorem acceptReserved_idle {s : State} (hi : s.seq.ph = .idle) : acceptReserved s = .next (s.raise .errOp) :=
  if_neg (by simp [hi])

/-- Settles O17: the word is rejected by the decoder (`decodeHostCmd_reserved`), so the edge is the acceptance step of
a reserved code. -/
theorem reservedCodeSetsErrOp : Obligations.ReservedCodeSetsErrOp := by
  intro s inp hi hr hv hop
  rw [clockEdge_idle hr hi, if_pos hv, offer, decodeHostCmd_reserved hop]
  exact acceptReserved_idle hi

end Sys2Proof.Machine
end

section
/-! PROOFS. The encoding (spec/30_encoding.md): decoder and encoder are inverse (R92, R96, R98), the decoder is that
of the opcode table (R106), and exactly the reserved codes are rejected (R103). -/

namespace Sys2Proof

/-! ### Decoding what the encoder wrote, format by format -/

theorem decodeHostCmd_of_encode {i : Instr} {hc : BitVec 20} (h : encode i = .hostCmd hc) :
    decodeHostCmd hc = .ok i := by
  cases i <;> simp only [encode, CodeWord.hostCmd.injEq, reduceCtorEq] at h <;> subst h <;>
    simp [decodeHostCmd, hostWord_fields]

theorem decodeQuery_of_encode {i : Instr} {qw : BitVec 8} (hwf : i.wellFormed = true) (h : encode i = .query qw) :
    decodeQuery qw = .ok i := by
  cases i <;> simp only [encode, CodeWord.query.injEq, reduceCtorEq] at h <;> subst h
  case axis p sel =>
    have hsel : sel.extractLsb' 2 2 = 0#2 := of_decide_eq_true hwf
    simp [decodeQuery, queryWord_fields, hsel]
  all_goals simp [decodeQuery, queryWord_fields]

theorem decodeWireCmd_of_encode {i : Instr} {f : Frame} (h : encode i = .wireCmd f) : decodeWireCmd f = .ok i := by
  cases i <;> simp only [encode, CodeWord.wireCmd.injEq, reduceCtorEq] at h <;> subst h <;> simp [decodeWireCmd]

/-- Settles O2, format by format. -/
theorem encodeThenDecodeReturnsInstruction : Obligations.EncodeThenDecodeReturnsInstruction := by
  intro i hwf
  cases h : encode i with
  | hostCmd hc => exact decodeHostCmd_of_encode h
  | query qw => exact decodeQuery_of_encode hwf h
  | wireCmd f => exact decodeWireCmd_of_encode h

/-! ### Encoding what the decoder read -/

theorem encode_of_decodeHostCmd {hc : BitVec 20} {i : Instr} (h : decodeHostCmd hc = .ok i) :
    encode i = .hostCmd hc ∧ i.wellFormed = true := by
  have hw := hostWord_of_fields hc
  rcases Machine.decodeHostCmd_cases hc with ⟨ho, hd⟩ | ⟨ho, hd⟩ | ⟨ho, hd⟩ | ⟨ho, hd⟩ | ⟨-, hd⟩
  all_goals rw [hd] at h; cases h
  all_goals rw [ho] at hw; exact ⟨congrArg _ hw, rfl⟩

theorem encode_of_decodeQuery {qw : BitVec 8} {i : Instr} (h : decodeQuery qw = .ok i) :
    encode i = .query qw ∧ i.wellFormed = true := by
  have hw := queryWord_of_fields qw
  rcases Machine.decodeQuery_cases qw with
    ⟨ho, hd⟩ | ⟨ho, hd⟩ | ⟨ho, hd⟩ | ⟨ho, hsel, hd⟩ | ⟨-, -, hd⟩ | ⟨ho, hd⟩ | ⟨ho, hd⟩ | ⟨-, hd⟩
  all_goals rw [hd] at h; cases h
  all_goals rw [ho] at hw; refine ⟨congrArg _ hw, ?_⟩
  case inr.inr.inr.inl => exact decide_eq_true ((Machine.axisSelector_legal_iff _).2 hsel)
  all_goals rfl

/-- Nine bytes decode to what they encode, and those that encode nothing are rejected. -/
theorem decodeWireCmd_cases (f : Frame) :
    (∃ i, encode i = .wireCmd f ∧ decodeWireCmd f = .ok i) ∨
    ((∀ i, encode i ≠ .wireCmd f) ∧ decodeWireCmd f = .error .unknownWireCommand) := by
  cases hd : decodeWireCmd f with
  | ok i =>
    refine .inl ⟨i, ?_, rfl⟩
    unfold decodeWireCmd at hd
    iterate 5
      split at hd
      · next hf => cases hd; exact congrArg CodeWord.wireCmd hf.symm
    cases hd
  | error e =>
    refine .inr ⟨fun i hi => ?_, ?_⟩
    · rw [decodeWireCmd_of_encode hi] at hd
      cases hd
    · unfold decodeWireCmd at hd
      iterate 5
        split at hd
        · cases hd
      exact congrArg _ (Except.error.inj hd).symm

theorem encode_of_decodeWireCmd {f : Frame} {i : Instr} (h : decodeWireCmd f = .ok i) :
    encode i = .wireCmd f ∧ i.wellFormed = true := by
  rcases decodeWireCmd_cases f with ⟨j, hj, hd⟩ | ⟨-, hd⟩
  all_goals rw [hd] at h; cases h
  refine ⟨hj, ?_⟩
  cases i with
  | axis p sel => cases hj
  | _ => rfl

/-- Settles O3, format by format. -/
theorem decodedWordIsTheEncoding : Obligations.DecodedWordIsTheEncoding := by
  intro c i h
  cases c with
  | hostCmd hc => exact encode_of_decodeHostCmd h
  | query qw => exact encode_of_decodeQuery h
  | wireCmd f => exact encode_of_decodeWireCmd h

/-! ### The rows of the table (R93, R106) -/

/-- Masking digit by digit. -/
theorem land_digits (k : Nat) {a b c d : Nat} (hb : b < 2 ^ k) (hd : d < 2 ^ k) :
    (a * 2 ^ k + b) &&& (c * 2 ^ k + d) = (a &&& c) * 2 ^ k + (b &&& d) := by
  have high {x y : Nat} (hy : y < 2 ^ k) : (x * 2 ^ k + y) / 2 ^ k = x := by
    rw [Nat.mul_comm, Nat.mul_add_div (Nat.two_pow_pos k), Nat.div_eq_of_lt hy, Nat.add_zero]
  have low {x y : Nat} (hy : y < 2 ^ k) : (x * 2 ^ k + y) % 2 ^ k = y := by
    rw [Nat.mul_comm, Nat.mul_add_mod, Nat.mod_eq_of_lt hy]
  rw [← Nat.div_add_mod' ((a * 2 ^ k + b) &&& (c * 2 ^ k + d)) (2 ^ k), Nat.and_div_two_pow, Nat.and_mod_two_pow,
    high hb, high hd, low hb, low hd]

theorem hostWord_land_opcode (hc : BitVec 20) : hc.toNat &&& 0xE0000 = (hostOp hc).toNat * 2 ^ 17 := by
  have hop : (hostOp hc).toNat = hc.toNat / 2 ^ 17 := by
    have := hc.isLt
    rw [hostOp, BitVec.extractLsb'_toNat, Nat.shiftRight_eq_div_pow]
    omega
  have hmod : (hostOp hc).toNat &&& 7 = (hostOp hc).toNat := by
    rw [show 7 = 2 ^ 3 - 1 from rfl, Nat.and_two_pow_sub_one_eq_mod, Nat.mod_eq_of_lt (hostOp hc).isLt]
  calc hc.toNat &&& 0xE0000
      = ((hostOp hc).toNat * 2 ^ 17 + hc.toNat % 2 ^ 17) &&& (7 * 2 ^ 17 + 0) := by
        rw [hop, Nat.div_add_mod', show 0xE0000 = 7 * 2 ^ 17 + 0 from rfl]
    _ = (hostOp hc).toNat * 2 ^ 17 := by
      rw [land_digits 17 (Nat.mod_lt _ (Nat.two_pow_pos 17)) (Nat.two_pow_pos 17), hmod, Nat.and_zero, Nat.add_zero]

/-- The number of a list of bytes, the first the most significant (R93). -/
def bytesNumber (l : List Byte) : Nat := l.foldl (fun n b => n * 256 + b.toNat) 0

theorem bytesNumber_concat (l : List Byte) (b : Byte) :
    bytesNumber (l ++ [b]) = bytesNumber l * 2 ^ 8 + b.toNat := by
  simp [bytesNumber]

/-- Masking a word of bytes is masking its bytes. -/
theorem bytesNumber_land {xs ms : List Byte} (h : xs.length = ms.length) :
    bytesNumber xs &&& bytesNumber ms = bytesNumber (List.zipWith (· &&& ·) xs ms) := by
  induction xs using List.reverseRecOn generalizing ms with
  | nil => simp [bytesNumber]
  | append_singleton xs x ih =>
    obtain ⟨ms, m, rfl⟩ : ∃ ms' m, ms = ms' ++ [m] :=
      ⟨_, _, (List.dropLast_append_getLast (by rintro rfl; simp at h)).symm⟩
    have hlen : xs.length = ms.length := by simpa using h
    rw [List.zipWith_append hlen, List.zipWith_cons_cons, List.zipWith_nil_left]
    simp only [bytesNumber_concat, land_digits 8 x.isLt m.isLt, ih hlen, BitVec.toNat_and]

theorem bytesNumber_injective {xs ys : List Byte} (h : xs.length = ys.length)
    (hn : bytesNumber xs = bytesNumber ys) : xs = ys := by
  induction xs using List.reverseRecOn generalizing ys with
  | nil => exact (List.length_eq_zero_iff.1 h.symm).symm
  | append_singleton xs x ih =>
    obtain ⟨ys, y, rfl⟩ : ∃ ys' y, ys = ys' ++ [y] :=
      ⟨_, _, (List.dropLast_append_getLast (by rintro rfl; simp at h)).symm⟩
    rw [bytesNumber_concat, bytesNumber_concat] at hn
    have hx := x.isLt
    have hy := y.isLt
    have hlast : x = y := BitVec.eq_of_toNat_eq (by omega)
    rw [ih (by simpa using h) (by omega), hlast]

/-- A row of nine-byte words is selected byte by byte. -/
theorem selects_wireCmd_iff {r : TableRow} {ms ps : List Byte} (f : Frame) (hr : r.format = .wireCmd)
    (hm : r.mask = bytesNumber ms) (hp : r.pattern = bytesNumber ps) (hms : ms.length = 9) (hps : ps.length = 9) :
    r.selects (.wireCmd f) = true ↔ List.zipWith (· &&& ·) f.toList ms = ps := by
  have hlen : f.toList.length = ms.length := by simp [hms]
  have hmask : (CodeWord.wireCmd f).number &&& r.mask = bytesNumber (List.zipWith (· &&& ·) f.toList ms) :=
    hm ▸ bytesNumber_land hlen
  rw [TableRow.selects, decide_eq_true_iff, hmask, hp]
  constructor
  · intro h
    exact bytesNumber_injective (by simp [hms, hps]) h.2
  · intro h
    exact ⟨hr, congrArg bytesNumber h⟩

theorem frame_eq_bytes (f : Frame) : f = #v[f[0], f[1], f[2], f[3], f[4], f[5], f[6], f[7], f[8]] := by
  ext i hi
  match i, hi with
  | 0, _ | 1, _ | 2, _ | 3, _ | 4, _ | 5, _ | 6, _ | 7, _ | 8, _ => rfl

/-- The row of a wire command with two operand bytes. -/
def operandRow (m : String) (op lo : Byte) : TableRow where
  mnemonic := m
  format := .wireCmd
  pattern := bytesNumber [0x01, op, 0x00, 0x00, 0x00, lo, lo, lo, lo]
  mask := bytesNumber [0xFF, 0xFF, 0xFF, 0x00, 0x00, 0xFF, 0xFF, 0xFF, 0xFF]

/-- The row of a wire command without operands. -/
def fixedRow (m : String) (g : Frame) : TableRow where
  mnemonic := m
  format := .wireCmd
  pattern := bytesNumber g.toList
  mask := bytesNumber (List.replicate 9 0xFF)

theorem wireCmdRows_eq : wireCmdRows =
    [operandRow "POLL_CMD" 0x42 0x00,
     fixedRow "ENTER_CFG" #v[0x01, 0x43, 0x00, 0x01, 0x00, 0x00, 0x00, 0x00, 0x00],
     fixedRow "EXIT_CFG" #v[0x01, 0x43, 0x00, 0x00, 0x5A, 0x5A, 0x5A, 0x5A, 0x5A],
     operandRow "SET_MODE_CMD" 0x44 0x00,
     operandRow "EN_MOTORS_CMD" 0x4D 0xFF] := by decide

theorem and_0xFF (b : Byte) : b &&& 255#8 = b := BitVec.and_allOnes

theorem operandRow_selects_iff (m : String) (op lo : Byte) (f : Frame) :
    (operandRow m op lo).selects (.wireCmd f) = true ↔ f = #v[0x01, op, 0x00, f[3], f[4], lo, lo, lo, lo] := by
  rw [selects_wireCmd_iff f rfl rfl rfl rfl rfl, frame_eq_bytes f]
  simp [and_0xFF]

theorem fixedRow_selects_iff (m : String) (f g : Frame) :
    (fixedRow m g).selects (.wireCmd f) = true ↔ f = g := by
  rw [selects_wireCmd_iff f rfl rfl rfl rfl (Vector.length_toList ..), frame_eq_bytes f, frame_eq_bytes g]
  simp [and_0xFF, List.replicate]

/-- The mnemonic of the instruction that a word decodes to. -/
def decodedMnemonic (c : CodeWord) : Option String :=
  match decode c with
  | .ok i => some i.mnemonic
  | .error _ => none

theorem hostCmd_selects_iff (hc : BitVec 20) :
    ∀ r ∈ opcodeTable, r.selects (.hostCmd hc) = true ↔ decodedMnemonic (.hostCmd hc) = some r.mnemonic := by
  rcases Machine.decodeHostCmd_cases hc with ⟨ho, hd⟩ | ⟨ho, hd⟩ | ⟨ho, hd⟩ | ⟨ho, hd⟩ | ⟨ho | ho | ho | ho, hd⟩
  all_goals
    simp [opcodeTable, hostCmdRows, queryRows, wireCmdRows, TableRow.selects, CodeWord.format, CodeWord.number,
      hostWord_land_opcode, decodedMnemonic, decode, hd, ho, Instr.mnemonic]

theorem query_selects_iff (qw : BitVec 8) :
    ∀ r ∈ opcodeTable, r.selects (.query qw) = true ↔ decodedMnemonic (.query qw) = some r.mnemonic := by
  revert qw
  decide

theorem wireCmd_selects_iff (f : Frame) :
    ∀ r ∈ opcodeTable, r.selects (.wireCmd f) = true ↔ decodedMnemonic (.wireCmd f) = some r.mnemonic := by
  have other (m : String) (fmt : Format) (n k : Nat) (h : fmt ≠ .wireCmd) :
      (TableRow.mk m fmt n k).selects (.wireCmd f) = false := by
    simp [TableRow.selects, CodeWord.format, h]
  simp only [opcodeTable, hostCmdRows, queryRows, wireCmdRows_eq, List.cons_append, List.nil_append,
    List.forall_mem_cons, operandRow_selects_iff, fixedRow_selects_iff, ne_eq, reduceCtorEq, not_false_eq_true, other]
  rcases decodeWireCmd_cases f with ⟨i, hi, hd⟩ | ⟨h, hd⟩
  · have hm : decodedMnemonic (.wireCmd f) = some i.mnemonic := by rw [decodedMnemonic, decode, hd]
    rw [hm]
    clear hm hd
    cases i <;> simp only [encode, CodeWord.wireCmd.injEq, reduceCtorEq] at hi <;> subst hi <;>
      simp [Instr.mnemonic, operandRow, fixedRow]
  · have hm : decodedMnemonic (.wireCmd f) = none := by rw [decodedMnemonic, decode, hd]
    have enc (i : Instr) {g : Frame} (hg : encode i = .wireCmd g) : f ≠ g := fun hf => h i (hf ▸ hg)
    simp only [hm, enc (.pollCmd f[3] f[4]) rfl, enc .enterCfg rfl, enc .exitCfg rfl, enc (.setModeCmd f[3] f[4]) rfl,
      enc (.enMotorsCmd f[3] f[4]) rfl]
    simp

/-- The rows that a word selects are those with the mnemonic of what it decodes to. -/
theorem selects_iff (c : CodeWord) :
    ∀ r ∈ opcodeTable, r.selects c = true ↔ decodedMnemonic c = some r.mnemonic :=
  match c with
  | .hostCmd hc => hostCmd_selects_iff hc
  | .query qw => query_selects_iff qw
  | .wireCmd f => wireCmd_selects_iff f

theorem mem_opcodeTable_of_mnemonic (i : Instr) : ∃ r ∈ opcodeTable, r.mnemonic = i.mnemonic := by
  obtain ⟨r, hr, hm, -⟩ : Laws.Row.Statement i := by
    cases i
    exacts [Laws.Row.poll .., Laws.Row.setMode .., Laws.Row.enMotors .., Laws.Row.setMotorLevels .., Laws.Row.isDown ..,
      Laws.Row.pressed .., Laws.Row.released .., Laws.Row.axis .., Laws.Row.isAnalog .., Laws.Row.isDigital ..,
      Laws.Row.pollCmd .., Laws.Row.enterCfg, Laws.Row.exitCfg, Laws.Row.setModeCmd .., Laws.Row.enMotorsCmd ..]
  exact ⟨r, hr, hm⟩

theorem mnemonic_injOn_opcodeTable : ∀ r ∈ opcodeTable, ∀ r' ∈ opcodeTable, r'.mnemonic = r.mnemonic → r' = r := by
  decide

/-- Settles O4, by `selects_iff`: the mnemonics tell the rows apart, and every instruction has a row. -/
theorem decoderFollowsOpcodeTable : Obligations.DecoderFollowsOpcodeTable := by
  constructor
  · intro c i h
    have hm : decodedMnemonic c = some i.mnemonic := by rw [decodedMnemonic, h]
    obtain ⟨r, hr, hri⟩ := mem_opcodeTable_of_mnemonic i
    refine ⟨r, hr, (selects_iff c r hr).2 (hri ▸ hm), hri, fun r' hr' hs => ?_⟩
    have : some i.mnemonic = some r'.mnemonic := hm ▸ (selects_iff c r' hr').1 hs
    exact mnemonic_injOn_opcodeTable r hr r' hr' (by rw [hri, Option.some.inj this])
  · intro c e h r hr
    have hm : decodedMnemonic c = none := by rw [decodedMnemonic, h]
    refine Bool.eq_false_iff.2 fun hs => ?_
    rw [(selects_iff c r hr).1 hs] at hm
    cases hm

/-! ### Words of the spec, and the reserved codes (R103) -/

/-- Settles O1: eight closed words, evaluated. -/
theorem specWordsDecode : Obligations.SpecWordsDecode := by
  unfold Obligations.SpecWordsDecode
  decide

theorem decodeHostCmd_isOk_iff (hc : BitVec 20) :
    (∃ i, decodeHostCmd hc = .ok i) ↔ hostOp hc = 1 ∨ hostOp hc = 2 ∨ hostOp hc = 3 ∨ hostOp hc = 4 := by
  rcases Machine.decodeHostCmd_cases hc with ⟨ho, hd⟩ | ⟨ho, hd⟩ | ⟨ho, hd⟩ | ⟨ho, hd⟩ | ⟨ho | ho | ho | ho, hd⟩
  all_goals simp [hd, ho]

theorem decodeQuery_isOk_iff (qw : BitVec 8) :
    (∃ i, decodeQuery qw = .ok i) ↔
      queryOp qw = 0 ∨ queryOp qw = 1 ∨ queryOp qw = 2 ∨ (queryOp qw = 3 ∧ (querySel qw).toNat < 4) ∨
      queryOp qw = 4 ∨ queryOp qw = 5 := by
  rcases Machine.decodeQuery_cases qw with
    ⟨ho, hd⟩ | ⟨ho, hd⟩ | ⟨ho, hd⟩ | ⟨ho, hsel, hd⟩ | ⟨ho, hsel, hd⟩ | ⟨ho, hd⟩ | ⟨ho, hd⟩ | ⟨ho | ho, hd⟩
  all_goals simp [hd, ho]
  · exact hsel
  · exact hsel

theorem decodeQuery_reservedOp {qw : BitVec 8} (h : queryOp qw = 6 ∨ queryOp qw = 7) :
    decodeQuery qw = .error (.reservedQueryOp (queryOp qw)) := by
  rcases h with h | h <;> simp [decodeQuery, h]

theorem decodeQuery_reservedSelector {qw : BitVec 8} (h : queryOp qw = 3) (hsel : 4 ≤ (querySel qw).toNat) :
    decodeQuery qw = .error (.reservedAxisSelector (querySel qw)) := by
  have hn : ¬ (querySel qw).extractLsb' 2 2 = 0#2 := fun hc =>
    absurd ((Machine.axisSelector_legal_iff _).1 hc) (Nat.not_lt.2 hsel)
  simp [decodeQuery, h, hn]

/-- Settles O5, clause by clause from what host and query words decode to. -/
theorem reservedCodesRejectedExactly : Obligations.ReservedCodesRejectedExactly :=
  ⟨decodeHostCmd_isOk_iff, fun _ => Machine.decodeHostCmd_reserved, decodeQuery_isOk_iff,
    fun _ => decodeQuery_reservedOp, fun _ => decodeQuery_reservedSelector⟩

end Sys2Proof
end

section
/-! PROOFS. The line-event level (spec/40_serial_transceiver.md, spec/41_frame_formatter.md): XFER_BYTE and TRANSACT in
closed form, trace and state, and from them what the session operations do to the architectural state. -/

namespace Sys2Proof.Machine

/-! ### The bits of a byte (R130, R131) -/

/-- The new bit enters at the top, the others move down. -/
theorem shiftIn_eq_append (rx : Byte) (bit : Bool) : shiftIn rx bit = BitVec.ofBool bit ++ rx.extractLsb' 1 7 := by
  revert rx bit
  decide

theorem getLsbD_shiftIn (rx : Byte) (bit : Bool) (i : Nat) :
    (shiftIn rx bit).getLsbD i = if i < 7 then rx.getLsbD (i + 1) else decide (i = 7) && bit := by
  rw [shiftIn_eq_append, BitVec.getLsbD_append]
  split
  · next h => simp [h, Nat.add_comm]
  · next h =>
    rcases Nat.eq_or_lt_of_not_lt h with rfl | h7
    · simp
    · simp [show i ≠ 7 by omega, show 1 ≤ i - 7 by omega]

/-- Eight samples make the byte whose bits they are, whatever the register held. -/
theorem foldl_shiftIn_byteBits (ans rx : Byte) : (byteBits ans).foldl shiftIn rx = ans := by
  apply BitVec.eq_of_getLsbD_eq
  intro i hi
  simp only [byteBits_eq, List.foldl_cons, List.foldl_nil, getLsbD_shiftIn]
  match i, hi with
  | 0, _ | 1, _ | 2, _ | 3, _ | 4, _ | 5, _ | 6, _ | 7, _ => simp

/-- The events of one bit: `out` is sent, `bit` sampled. -/
def bitEvents (h : Nat) (out bit : Bool) : Trace :=
  [.set .cmd out, .set .clk false, .wait h, .set .clk true, .sample bit, .wait h]

theorem xferBits_trace (b : Byte) (l : List Bool) : ∀ (n : Nat) (x : State), x.txsr = b >>> n →
    (xferBits l x).2 = (l.zipIdx n).flatMap fun q => bitEvents x.tp.tHalf (b.getLsbD q.2) q.1 := by
  induction l with
  | nil => intros; rfl
  | cons d l ih =>
    intro n x hx
    have hnext : (xferBit d x).1.txsr = b >>> (n + 1) := by
      show x.txsr >>> 1 = _
      rw [hx, BitVec.shiftRight_add]
    have hbit : x.txsr.getLsbD 0 = b.getLsbD n := by rw [hx, BitVec.getLsbD_ushiftRight, Nat.add_zero]
    rw [xferBits, List.zipIdx_cons, List.flatMap_cons, ← hbit, ← xferBit_tp d x, ← ih (n + 1) _ hnext]
    rfl

theorem xferBits_state (l : List Bool) : ∀ (d : Bool) (x : State), (xferBits (d :: l) x).1 = { x with
    txsr := x.txsr >>> (l.length + 1), rxsr := (d :: l).foldl shiftIn x.rxsr, lClk := true
    lCmd := x.txsr.getLsbD l.length } := by
  induction l with
  | nil => intros; rfl
  | cons d' l ih =>
    intro d x
    show (xferBits (d' :: l) (xferBit d x).1).1 = _
    rw [ih]
    simp [xferBit, BitVec.shiftRight_add, Nat.add_comm, BitVec.getLsbD_ushiftRight]

/-- The events of a byte: bit `k` of `b` sent at pulse `k`, bit `k` of `ans` sampled. -/
def byteEvents (h : Nat) (b ans : Byte) : Trace :=
  (List.finRange 8).flatMap fun k => bitEvents h (b.getLsbD k.val) (ans.getLsbD k.val)

theorem xferByte_trace (b ans : Byte) (s : State) : (xferByte b ans s).2 = byteEvents s.tp.tHalf b ans :=
  xferBits_trace b (byteBits ans) 0 { s with txsr := b } (BitVec.ushiftRight_zero b).symm

theorem xferByte_state (b ans : Byte) (s : State) :
    (xferByte b ans s).1 = { s with txsr := 0x00, rxsr := ans, lClk := true, lCmd := b.getLsbD 7 } := by
  have hshift : b >>> 8 = 0x00 := BitVec.ushiftRight_eq_zero (Nat.le_refl 8)
  have h := xferBits_state [ans.getLsbD 1, ans.getLsbD 2, ans.getLsbD 3, ans.getLsbD 4, ans.getLsbD 5, ans.getLsbD 6,
    ans.getLsbD 7] (ans.getLsbD 0) { s with txsr := b }
  rw [← byteBits_eq, foldl_shiftIn_byteBits] at h
  simp only [List.length_cons, List.length_nil, hshift] at h
  exact h

/-! ### The readings of a trace, along `++` -/

section Readings

variable (t u : Trace)

@[simp] theorem duration_append : Trace.duration (t ++ u) = t.duration + u.duration := by
  simp [Trace.duration]

@[simp] theorem cmdLevels_append : Trace.cmdLevels (t ++ u) = t.cmdLevels ++ u.cmdLevels := List.filterMap_append

@[simp] theorem samples_append : Trace.samples (t ++ u) = t.samples ++ u.samples := List.filterMap_append

@[simp] theorem countSets_append (l : Line) : Trace.countSets (t ++ u) l = t.countSets l + u.countSets l := by
  simp [Trace.countSets]

@[simp] theorem countWaits_append : Trace.countWaits (t ++ u) = t.countWaits + u.countWaits := by
  simp [Trace.countWaits]

end Readings

/-- What adds up along `++`, over pieces that each count `c`. -/
theorem count_flatMap {α : Type} {f : Trace → Nat} (hnil : f [] = 0) (happ : ∀ t u, f (t ++ u) = f t + f u)
    {g : α → Trace} {c : Nat} (hg : ∀ a, f (g a) = c) (l : List α) : f (l.flatMap g) = l.length * c := by
  induction l with
  | nil => simp [hnil]
  | cons a l ih => rw [List.flatMap_cons, happ, hg, ih, List.length_cons]; ring

/-! ### One byte (R131, R132, R133) -/

section ByteEvents

variable (h : Nat) (b ans : Byte)

theorem byteEvents_length : (byteEvents h b ans).length = 48 := rfl

theorem byteEvents_cmdLevels : (byteEvents h b ans).cmdLevels = byteBits b := rfl

theorem byteEvents_samples : (byteEvents h b ans).samples = byteBits ans := rfl

theorem byteEvents_duration : (byteEvents h b ans).duration = 16 * h := by
  have hbit (k : Fin 8) : (bitEvents h (b.getLsbD k.val) (ans.getLsbD k.val)).duration = 2 * h := by
    simp [Trace.duration, bitEvents]; omega
  rw [byteEvents, count_flatMap rfl duration_append hbit, List.length_finRange]
  omega

theorem byteEvents_countWaits : (byteEvents h b ans).countWaits = 16 := rfl

theorem byteEvents_countSets_cmd : (byteEvents h b ans).countSets .cmd = 8 := rfl

theorem byteEvents_countSets_clk : (byteEvents h b ans).countSets .clk = 16 := rfl

theorem byteEvents_countSets_att (p : Pad) : (byteEvents h b ans).countSets (attLine p) = 0 := by
  cases p <;> rfl

end ByteEvents

/-- Settles O25, by the closed forms of the trace and the state. -/
theorem transferredByteClosedForm : Obligations.TransferredByteClosedForm := by
  intro b ans s
  rw [xferByte_state, xferByte_trace]
  exact ⟨rfl, byteEvents_cmdLevels .., byteEvents_samples .., rfl⟩

/-- Settles O26, by the closed form of the state. -/
theorem transferredByteState : Obligations.TransferredByteState := xferByte_state

/-- Settles O27, by the closed form of the trace: eight bits of two half-cycles. -/
theorem transferredByteDuration : Obligations.TransferredByteDuration := by
  intro b ans s
  rw [xferByte_trace, byteEvents_duration]

/-! ### A transaction (R140, R147) -/

/-- The events of byte position `i` of a transaction: the byte, then its acknowledge wait. -/
def slotEvents (ans : Frame) (s : State) (i : Fin 9) : Trace :=
  (xferByte s.cbuf[i] ans[i] s).2 ++ [.wait s.tp.tAck]

theorem transactBytes_cons (ans : Frame) (i : Fin 9) (l : List (Fin 9)) (x : State) :
    (transactBytes ans (i :: l) x).2 = slotEvents ans x i ++ (transactBytes ans l
      ((xferByte x.cbuf[i] ans[i] x).1.write (.resp i) (xferByte x.cbuf[i] ans[i] x).1.rxsr)).2 := by
  rw [transactBytes, slotEvents, List.append_assoc]
  rfl

theorem transactBytes_trace (ans : Frame) (l : List (Fin 9)) (x : State) :
    (transactBytes ans l x).2 = l.flatMap (slotEvents ans x) := by
  induction l generalizing x with
  | nil => rfl
  | cons i l ih =>
    have hslots : slotEvents ans ((xferByte x.cbuf[i] ans[i] x).1.write (.resp i) (xferByte x.cbuf[i] ans[i] x).1.rxsr) =
        slotEvents ans x := by
      rw [xferByte_state]
      funext j
      rw [slotEvents, slotEvents, xferByte_trace, xferByte_trace]
      rfl
    rw [transactBytes_cons, ih, hslots, List.flatMap_cons]

/-- `RESP[j]` written with byte `j` of the answer. -/
def storeByte (ans r : Frame) (j : Fin 9) : Frame := r.set j ans[j]

theorem transactBytes_state (ans : Frame) (l : List (Fin 9)) : ∀ (i : Fin 9) (x : State),
    (transactBytes ans (l ++ [i]) x).1 = { x with
      resp := (l ++ [i]).foldl (storeByte ans) x.resp
      txsr := 0x00, rxsr := ans[i], lClk := true, lCmd := x.cbuf[i].getLsbD 7 } := by
  induction l with
  | nil =>
    intro i x
    rw [List.nil_append, transactBytes_cons_state, xferByte_state]
    rfl
  | cons j l ih =>
    intro i x
    rw [List.cons_append, transactBytes_cons_state, xferByte_state, ih]
    rfl

theorem foldl_storeByte_getElem (ans : Frame) (l : List (Fin 9)) (r : Frame) (k : Fin 9) :
    (l.foldl (storeByte ans) r)[k] = if k ∈ l then ans[k] else r[k] := by
  induction l generalizing r with
  | nil => simp
  | cons j l ih =>
    rw [List.foldl_cons, ih]
    by_cases hk : k ∈ l
    · simp [hk]
    · by_cases hj : k = j
      · subst hj; simp [storeByte]
      · have : j.val ≠ k.val := fun h => hj (Fin.ext h.symm)
        simp [storeByte, hk, hj, this]

/-- All nine bytes are stored. -/
theorem foldl_storeByte_finRange (ans r : Frame) : (List.finRange 9).foldl (storeByte ans) r = ans :=
  Vector.ext fun i hi => (foldl_storeByte_getElem ans _ r ⟨i, hi⟩).trans (if_pos (List.mem_finRange _))

/-- TRANSACT's trace (R140). -/
theorem transact_trace (p : Pad) (ans : Frame) (s : State) :
    (transact p ans s).2 = [.set (attLine p) false, .wait s.tp.tAtt] ++
      (List.finRange 9).flatMap (slotEvents ans s) ++ [.set (attLine p) true, .wait s.tp.tInter] := by
  have hslots : slotEvents ans (s.setLine (attLine p) false) = slotEvents ans s := by
    funext i
    rw [slotEvents, slotEvents, xferByte_trace, xferByte_trace, setLine_tp, setLine_cbuf]
  rw [transact, transactBytes_trace, hslots]

/-- TRANSACT's state (R140, R149). -/
theorem transact_state (p : Pad) (ans : Frame) (s : State) :
    (transact p ans s).1 = { s with
      resp := ans, txsr := 0x00, rxsr := ans[8], lClk := true, lCmd := s.cbuf[8].getLsbD 7
      lAtt1 := if p = .pad1 then true else s.lAtt1
      lAtt2 := if p = .pad2 then true else s.lAtt2 } := by
  have hrange : List.finRange 9 = [0, 1, 2, 3, 4, 5, 6, 7] ++ [8] := rfl
  rw [transact, hrange, transactBytes_state, ← hrange, foldl_storeByte_finRange]
  cases p <;> rfl

section TransactReadings

variable (p : Pad) (ans : Frame) (s : State)

theorem slotEvents_eq (i : Fin 9) :
    slotEvents ans s i = byteEvents s.tp.tHalf s.cbuf[i] ans[i] ++ [.wait s.tp.tAck] := by
  rw [slotEvents, xferByte_trace]

/-- What adds up along `++` and is `c` for every byte, over a transaction. -/
theorem transact_count {f : Trace → Nat} (hnil : f [] = 0) (happ : ∀ t u, f (t ++ u) = f t + f u) {c : Nat}
    (hbyte : ∀ b b', f (byteEvents s.tp.tHalf b b') = c) :
    f (transact p ans s).2 = f [.set (attLine p) false, .wait s.tp.tAtt] + 9 * (c + f [.wait s.tp.tAck]) +
      f [.set (attLine p) true, .wait s.tp.tInter] := by
  have hslot (i : Fin 9) : f (slotEvents ans s i) = c + f [.wait s.tp.tAck] := by rw [slotEvents_eq, happ, hbyte]
  rw [transact_trace, happ, happ, count_flatMap hnil happ hslot, List.length_finRange]

theorem transact_length : (transact p ans s).2.length = 445 :=
  transact_count p ans s (f := List.length) rfl (fun _ _ => List.length_append) fun _ _ => byteEvents_length ..

theorem transact_duration : (transact p ans s).2.duration = txnTicks s.tp := by
  rw [transact_count p ans s rfl duration_append fun _ _ => byteEvents_duration .., txnTicks]
  simp only [Trace.duration, List.map_cons, List.map_nil, List.sum_cons, List.sum_nil]
  omega

theorem transact_countWaits : (transact p ans s).2.countWaits = 155 :=
  transact_count p ans s rfl countWaits_append fun _ _ => byteEvents_countWaits ..

theorem transact_countSets_cmd : (transact p ans s).2.countSets .cmd = 72 := by
  rw [transact_count p ans s (f := (Trace.countSets · .cmd)) rfl (fun t u => countSets_append t u _) fun _ _ =>
    byteEvents_countSets_cmd ..]
  cases p <;> rfl

theorem transact_countSets_clk : (transact p ans s).2.countSets .clk = 144 := by
  rw [transact_count p ans s (f := (Trace.countSets · .clk)) rfl (fun t u => countSets_append t u _) fun _ _ =>
    byteEvents_countSets_clk ..]
  cases p <;> rfl

theorem transact_countSets_att (q : Pad) :
    (transact p ans s).2.countSets (attLine q) = if q = p then 2 else 0 := by
  rw [transact_count p ans s (f := (Trace.countSets · (attLine q))) rfl (fun t u => countSets_append t u _) fun _ _ =>
    byteEvents_countSets_att (p := q) ..]
  cases p <;> cases q <;> rfl

/-- Levels in time order, of which attention and waits bear none, are read slot by slot. -/
theorem transact_levels {f : Trace → List Bool} (hnil : f [] = []) (happ : ∀ t u, f (t ++ u) = f t ++ f u)
    (hatt : ∀ v d, f [.set (attLine p) v, .wait d] = []) {bits : Fin 9 → List Bool}
    (hslot : ∀ i, f (slotEvents ans s i) = bits i) : f (transact p ans s).2 = (List.finRange 9).flatMap bits := by
  have hslots (l : List (Fin 9)) : f (l.flatMap (slotEvents ans s)) = l.flatMap bits := by
    induction l with
    | nil => exact hnil
    | cons i l ih => rw [List.flatMap_cons, happ, ih, hslot, List.flatMap_cons]
  rw [transact_trace, happ, happ, hatt, hatt, hslots, List.nil_append, List.append_nil]

theorem transact_cmdLevels :
    (transact p ans s).2.cmdLevels = (List.finRange 9).flatMap fun i => byteBits s.cbuf[i] := by
  refine transact_levels p ans s rfl cmdLevels_append (fun v d => by cases p <;> rfl) fun i => ?_
  rw [slotEvents_eq, cmdLevels_append, byteEvents_cmdLevels]
  rfl

theorem transact_samples :
    (transact p ans s).2.samples = (List.finRange 9).flatMap fun i => byteBits ans[i] := by
  refine transact_levels p ans s rfl samples_append (fun v d => rfl) fun i => ?_
  rw [slotEvents_eq, samples_append, byteEvents_samples]
  rfl

end TransactReadings

/-- Settles O28: the shape is the closed form of the trace, the counts add up over its nine slots. -/
theorem transactionTraceShape : Obligations.TransactionTraceShape := by
  intro p ans s t
  have hsamples : t.samples.length = 72 := congrArg List.length (transact_samples p ans s)
  exact ⟨transact_length p ans s, hsamples, transact_countSets_cmd p ans s, transact_countSets_clk p ans s,
    (transact_countSets_att p ans s p).trans (if_pos rfl), transact_countWaits p ans s, transact_duration p ans s,
    fun q hq => (transact_countSets_att p ans s q).trans (if_neg hq), transact_trace p ans s⟩

/-- Settles O29, by the closed forms of the trace and the state. -/
theorem transactionSendsAndStores : Obligations.TransactionSendsAndStores := fun p ans s =>
  ⟨transact_cmdLevels p ans s, transact_samples p ans s, transact_state p ans s⟩

end Sys2Proof.Machine
end

section
/-! PROOFS. The session operations at the line-event level (spec/42_session_ops.md): they realise the operation level
of R160, and the laws of the change mask (R155). -/

namespace Sys2Proof.Machine

/-! ### What a transaction leaves of the architectural state -/

section SendCommand

variable (cmd : Frame) (p : Pad) (ans : Frame) (s : State)

theorem transact_arch : (transact p ans s).1.arch = s.arch := by
  rw [transact_state]; rfl

theorem sendCommand_arch : (sendCommand cmd p ans s).1.arch = s.arch :=
  transact_arch p ans _

theorem sendCommand_cmdLevels :
    (sendCommand cmd p ans s).2.cmdLevels = (List.finRange 9).flatMap fun i => byteBits cmd[i] :=
  transact_cmdLevels p ans _

end SendCommand

theorem bracketEvents_arch (middle : Frame) (p : Pad) (r0 r1 r2 : Frame) (s : State) :
    (bracketEvents middle p r0 r1 r2 s).1.arch = s.arch := by
  simp only [bracketEvents, sendCommand_arch]

theorem bracketEvents_cmdLevels (middle : Frame) (p : Pad) (r0 r1 r2 : Frame) (s : State) :
    (bracketEvents middle p r0 r1 r2 s).2.cmdLevels =
      [enterCfgBytes, middle, exitCfgBytes].flatMap fun f => (List.finRange 9).flatMap fun i => byteBits f[i] := by
  simp only [bracketEvents, cmdLevels_append, sendCommand_cmdLevels, List.flatMap_cons, List.flatMap_nil,
    List.append_nil, List.append_assoc]

/-- POLL stores the response and the change mask, and goes idle where it came from (R150). -/
theorem pollEvents_state (p : Pad) (a b : Byte) (r : Frame) (s : State) :
    (pollEvents p a b r s).1.arch = { s.arch with
      cur := s.cur.set p r, prev := s.prev.set p (changeMask (s.cur.get p) r) } ∧
    (pollEvents p a b r s).1.seq = s.seq := by
  rw [pollEvents, sendCommand, transact_state]
  cases p <;> exact ⟨rfl, rfl⟩

theorem pollEvents_cmdLevels (p : Pad) (a b : Byte) (r : Frame) (s : State) :
    (pollEvents p a b r s).2.cmdLevels =
      (List.finRange 9).flatMap fun i => byteBits (pollCmdBytes (s.mot1.get p) (s.mot2.get p))[i] :=
  sendCommand_cmdLevels ..

/-! ### The operation level (R160) -/

theorem needsAttention_ok {has2 : Bool} {p : Pad} {S : Arch} {r : OpResult} (h : p = .pad2 → has2 = true) :
    needsAttention has2 p S r = r := by
  refine if_neg ?_
  rintro ⟨hp, hf⟩
  rw [h hp] at hf
  cases hf

/-- Settles O30: the operation functions past their check, with the closed forms of the operations' events. -/
theorem lineLevelRealisesOperationLevel : Obligations.LineLevelRealisesOperationLevel := by
  intro s p a b r r0 r1 r2 h2
  rw [opPoll, opSetMode, opEnMotors, needsAttention_ok h2, needsAttention_ok h2, needsAttention_ok h2]
  refine ⟨⟨(pollEvents_state p a b r s).1, ?_⟩, ⟨bracketEvents_arch .., ?_⟩, ⟨bracketEvents_arch .., ?_⟩⟩
  · rw [pollEvents_cmdLevels, List.flatMap_singleton]
    rfl
  · exact bracketEvents_cmdLevels ..
  · exact bracketEvents_cmdLevels ..

/-! ### The change mask (R155) -/

theorem buttonIndex_cases (n : BitVec 4) : buttonIndex n = 3 ∨ buttonIndex n = 4 := by
  rw [buttonIndex_eq_ite]
  split
  · exact .inl rfl
  · exact .inr rfl

theorem changeMask_getElem (old new : Frame) {j : Fin 9} (hj : j = 3 ∨ j = 4) :
    (changeMask old new)[j] = old[j] ^^^ new[j] := by
  rcases hj with rfl | rfl <;> simp [changeMask]

theorem changeMask_getElem_other (old new : Frame) {j : Fin 9} (h3 : j ≠ 3) (h4 : j ≠ 4) :
    (changeMask old new)[j] = old[j] := by
  have h3 : 3 ≠ j.val := fun h => h3 (Fin.ext h.symm)
  have h4 : 4 ≠ j.val := fun h => h4 (Fin.ext h.symm)
  simp [changeMask, h3, h4]

section AfterPoll

variable (p : Pad) (a b : Byte) (r : Frame) (s : State) (n : BitVec 4)

theorem pollEvents_cur : (pollEvents p a b r s).1.cur.get p = r := by
  have h : (pollEvents p a b r s).1.cur = s.cur.set p r := congrArg Arch.cur (pollEvents_state p a b r s).1
  rw [h, PerPad.get_set_same]

theorem pollEvents_prev : (pollEvents p a b r s).1.prev.get p = changeMask (s.cur.get p) r := by
  have h : (pollEvents p a b r s).1.prev = s.prev.set p (changeMask (s.cur.get p) r) :=
    congrArg Arch.prev (pollEvents_state p a b r s).1
  rw [h, PerPad.get_set_same]

/-- A bit of the change mask is set where the response differs from the frame before it. -/
theorem pollEvents_prev_bit (m : Nat) :
    ((pollEvents p a b r s).1.prev.get p)[buttonIndex n].getLsbD m =
      ((s.cur.get p)[buttonIndex n].getLsbD m != r[buttonIndex n].getLsbD m) := by
  rw [pollEvents_prev, changeMask_getElem _ _ (buttonIndex_cases n), BitVec.getLsbD_xor]

variable {p r s n} (h : s.seq.ph = .idle) {c d : Bool} (hc : (s.cur.get p)[buttonIndex n].getLsbD (n.toNat % 8) = c)
  (hd : r[buttonIndex n].getLsbD (n.toNat % 8) = d)
include h

theorem pollEvents_idle : (pollEvents p a b r s).1.seq.ph = .idle := by
  rw [(pollEvents_state p a b r s).2, h]

include hc hd

/-- PRESSED after a POLL: the button's bit went from 1 to 0. -/
theorem exec_pressed_after_poll : exec (.pressed p n) (pollEvents p a b r s).1 =
    .next ((pollEvents p a b r s).1.report (if c = true ∧ d = false then 0x01 else 0x00)) := by
  rw [exec_pressed_idle (pollEvents_idle a b h), pressedAt_buttonMask, pollEvents_prev_bit, pollEvents_cur, hc, hd]
  cases c <;> cases d <;> rfl

/-- RELEASED after a POLL: the button's bit went from 0 to 1. -/
theorem exec_released_after_poll : exec (.released p n) (pollEvents p a b r s).1 =
    .next ((pollEvents p a b r s).1.report (if c = false ∧ d = true then 0x01 else 0x00)) := by
  rw [exec_released_idle (pollEvents_idle a b h), releasedAt_buttonMask, pollEvents_prev_bit, pollEvents_cur, hc, hd]
  cases c <;> cases d <;> rfl

end AfterPoll

/-- Settles O35: PRESSED and RELEASED from the button's bit before a POLL and in its response; in the further POLL
these are the same. -/
theorem changeMaskLaws : Obligations.ChangeMaskLaws := by
  intro s p a b r n hi j m c t
  refine ⟨pollEvents_prev_bit p a b r s n m, exec_pressed_after_poll a b hi rfl rfl,
    exec_released_after_poll a b hi rfl rfl, fun r' hr' => ?_⟩
  intro t'
  have ht : t.seq.ph = .idle := pollEvents_idle a b hi
  have hcur : (t.cur.get p)[j].getLsbD m = r'[j].getLsbD m := by rw [hr', pollEvents_cur]
  constructor
  · rw [exec_pressed_after_poll a b ht hcur rfl, if_neg fun hcd => Bool.noConfusion (hcd.1.symm.trans hcd.2)]
  · rw [exec_released_after_poll a b ht hcur rfl, if_neg fun hcd => Bool.noConfusion (hcd.1.symm.trans hcd.2)]

end Sys2Proof.Machine
end

section
/-! PROOFS. Whole operations at the tick level (spec/70_reset_and_hazards.md R241, R242): an accepted operation runs as
the line-event level says, edge by edge. -/

namespace Sys2Proof.Machine

open Sys2Proof.Safety

/-! ### One transaction of an operation, and what it keeps -/

/-- Transaction `t` of an operation at the line-event level: its wire command sent to the pad in `PADR`. -/
def transactionOf (op : TxnOp) (t : Fin 3) (ans : Frame) (x : State) : State × Trace :=
  sendCommand (commandOf op t x) x.padr ans x

section Keeps

variable (op : TxnOp) (p : Pad) (a b : Byte) (t : Fin 3) (ans : Frame) (s : State)

@[simp] theorem accepted_tp : (accepted op p a b s).tp = s.tp := by cases op <;> rfl

@[simp] theorem accepted_cfg : (accepted op p a b s).cfg = s.cfg := by cases op <;> rfl

@[simp] theorem accepted_err : (accepted op p a b s).err = s.err := by cases op <;> rfl

@[simp] theorem accepted_opr : (accepted op p a b s).opr = op.code := by cases op <;> rfl

@[simp] theorem accepted_padr : (accepted op p a b s).padr = p := by cases op <;> rfl

@[simp] theorem transactionOf_tp : (transactionOf op t ans s).1.tp = s.tp := by
  rw [transactionOf, sendCommand, transact_state]

@[simp] theorem transactionOf_cfg : (transactionOf op t ans s).1.cfg = s.cfg := by
  rw [transactionOf, sendCommand, transact_state]

@[simp] theorem sendCommand_err (cmd : Frame) : (sendCommand cmd p ans s).1.err = s.err := by
  rw [sendCommand, transact_state]

@[simp] theorem sendCommand_opr (cmd : Frame) : (sendCommand cmd p ans s).1.opr = s.opr := by
  rw [sendCommand, transact_state]

@[simp] theorem transactionOf_err : (transactionOf op t ans s).1.err = s.err := sendCommand_err ..

@[simp] theorem transactionOf_opr : (transactionOf op t ans s).1.opr = s.opr := sendCommand_opr ..

@[simp] theorem transactionOf_padr : (transactionOf op t ans s).1.padr = s.padr := by
  rw [transactionOf, sendCommand, transact_state]

@[simp] theorem transactionOf_ar : (transactionOf op t ans s).1.ar = s.ar := by
  rw [transactionOf, sendCommand, transact_state]

@[simp] theorem transactionOf_br : (transactionOf op t ans s).1.br = s.br := by
  rw [transactionOf, sendCommand, transact_state]

end Keeps

/-! ### From the acceptance to the end of a transaction -/

section Transactions

variable {s0 : State} {e : EdgeInputs} {es : List EdgeInputs} (hr : NoReset es) {b : Nat} {op : TxnOp} {x : State}
  {t : Fin 3} {i : Fin 9} {k : Fin 8} {tr : Trace}
include hr

/-- A transaction that starts on edge `b`, from the last tick of its `ATT_WAIT` to the last tick of its `INTER_WAIT`:
the line-event level's, with the answer read off the data line. -/
theorem Reach.transactionOf
    (h : Reach s0 e es (b + (x.tp.tAtt - 1)) (attended (commandOf op t x) x) ⟨.attWait, t, i, k, 1⟩
      (tr ++ Trace.unitWaits [.set (attLine x.padr) false, .wait x.tp.tAtt]))
    (htp : x.tp.positive) (hlen : b + txnTicks x.tp ≤ es.length + 1) :
    Reach s0 e es (b + (txnTicks x.tp - 1)) (transactionOf op t (capturedFrame x.tp (es.drop b)) x).1
      ⟨.interWait, t, 8, 7, 1⟩ (tr ++ (transactionOf op t (capturedFrame x.tp (es.drop b)) x).2.unitWaits) := by
  have htp' : (attended (commandOf op t x) x).tp = x.tp := setLine_tp ..
  have hpadr : (attended (commandOf op t x) x).padr = x.padr := setLine_padr ..
  have hc := Reach.captured (x := attended (commandOf op t x) x) hr (htp' ▸ h) (htp' ▸ htp) (htp' ▸ hlen)
  rw [htp', hpadr] at hc
  refine hc.congr rfl ?_
  simp only [Machine.transactionOf, sendCommand, transact, unitWaits_append, List.append_assoc]
  rfl

/-- The next transaction of an operation, from the end of one. -/
theorem Reach.nextTransactionOf {tp : TimingProfile} (htp : tp.positive) (hx : x.tp = tp) {n : Nat}
    (h : Reach s0 e es n x ⟨.interWait, t, i, k, 1⟩ tr) (hop : TxnOp.ofCode x.opr = some op) (ht : t < op.last)
    (h2 : x.padr = .pad2 → x.cfg.hasAtt2 = true) (hlen : n + txnTicks tp ≤ es.length) {ans : Frame}
    (hans : ans = capturedFrame tp (es.drop (n + 1))) :
    Reach s0 e es (n + txnTicks tp) (Machine.transactionOf op (t + 1) ans x).1 ⟨.interWait, t + 1, 8, 7, 1⟩
      (tr ++ (Machine.transactionOf op (t + 1) ans x).2.unitWaits) := by
  subst hx hans
  have hA := htp.1
  have hAT : x.tp.tAtt ≤ txnTicks x.tp := by unfold txnTicks; omega
  have hatt := h.nextTransaction hr hop ht h2 hA (by omega)
  exact (Reach.transactionOf (b := n + 1) hr (hatt.congr (by omega) rfl) htp (by omega)).congr (by omega) rfl

variable {p : Pad} {a c : Byte} (hi : s0.seq.ph = .idle) (htp : s0.tp.positive)
  (h2 : p = .pad2 → s0.cfg.hasAtt2 = true) (ho : Offers e (startInstr op p a c))
include hi htp h2 ho

/-- The first transaction of an accepted operation. -/
theorem Reach.firstTransactionOf (hlen : txnTicks s0.tp ≤ es.length + 1) {ans : Frame}
    (hans : ans = capturedFrame s0.tp es) :
    Reach s0 e es (txnTicks s0.tp - 1) (Machine.transactionOf op 0 ans (accepted op p a c s0)).1
      ⟨.interWait, 0, 8, 7, 1⟩ (Machine.transactionOf op 0 ans (accepted op p a c s0)).2.unitWaits := by
  have hatt : s0.tp.tAtt - 1 ≤ es.length := by unfold txnTicks at hlen; omega
  have h := Reach.start hr hi htp h2 ho hatt
  have h' := Reach.transactionOf (b := 0) (op := op) (x := accepted op p a c s0) (tr := []) hr
    (by simpa using h) (by simpa using htp) (by simpa using hlen)
  simpa [hans] using h'

end Transactions

/-! ### The end of an operation -/

theorem txnTicks_pos {tp : TimingProfile} (h : tp.positive) : 1 ≤ txnTicks tp := by
  have := h.1
  unfold txnTicks
  omega

/-- What the end of an operation stores (R150, R158). -/
def completed (op : TxnOp) (x : State) : State :=
  match op with
  | .poll => storeResponse x.padr x
  | .setMode => x
  | .enMotors => x

theorem endOperation_onTick (op : TxnOp) (x : State) (t : Fin 3) (o : Bool) :
    endOperation op (onTick x ⟨.interWait, t, 8, 7, 1⟩ (overrun x.err o)) = settled (completed op x) t o := by
  cases op <;> rfl

theorem Reach.settled {s0 : State} {e : EdgeInputs} {es : List EdgeInputs} (hr : NoReset es) {n : Nat} {x : State}
    {t : Fin 3} {tr : Trace} {op : TxnOp} (h : Reach s0 e es n x ⟨.interWait, t, 8, 7, 1⟩ tr)
    (hop : TxnOp.ofCode x.opr = some op) (ht : t = op.last) (herr : x.err = s0.err) (hlen : es.length = n + 1) :
    runEdges (e :: es) s0 = .next (settled (completed op x) t (anyOffer es)) ∧
    edgeTrace (e :: es) s0 = .wait 1 :: tr := by
  rw [← endOperation_onTick, herr]
  exact h.finish hr hop ht hlen

/-! ### POLL -/

theorem pollEvents_eq (p : Pad) (a b : Byte) (ans : Frame) (s : State) :
    pollEvents p a b ans s = (completed .poll (transactionOf .poll 0 ans (accepted .poll p a b s)).1,
      (transactionOf .poll 0 ans (accepted .poll p a b s)).2) := by
  rw [completed, transactionOf_padr, accepted_padr]
  rfl

/-- Settles O31: acceptance and one transaction (`Reach.firstTransactionOf`), then the completion (`Reach.settled`). -/
theorem pollRunsAsItsEvents : Obligations.PollRunsAsItsEvents := by
  intro s e edges p a b hi htp h2 ho hr hlen x
  have hpos := txnTicks_pos htp
  have h := Reach.firstTransactionOf (op := .poll) hr hi htp h2 ho (by omega) rfl
  have hx : x = _ := pollEvents_eq ..
  rw [hx]
  exact h.settled hr (by simp) rfl (by simp) (by omega)

/-! ### The configuration bracket -/

/-- The operations that are a bracket of three transactions (R151, R152, R157). -/
def TxnOp.IsBracket (op : TxnOp) : Prop := op = .setMode ∨ op = .enMotors

section Bracket

variable {op : TxnOp} (h : op.IsBracket)
include h

theorem TxnOp.IsBracket.last_eq : op.last = 2 := by
  rcases h with rfl | rfl <;> rfl

theorem TxnOp.IsBracket.completed_eq (s : State) : completed op s = s := by
  rcases h with rfl | rfl <;> rfl

/-- Entering and leaving send fixed bytes; the middle command depends on the latched operands alone. -/
theorem TxnOp.IsBracket.commandOf_eq {s t : State} (ha : s.ar = t.ar) (hb : s.br = t.br) :
    commandOf op 0 s = enterCfgBytes ∧ commandOf op 1 s = commandOf op 1 t ∧ commandOf op 2 s = exitCfgBytes := by
  rcases h with rfl | rfl <;> simp only [commandOf, ha, hb, and_self]

/-- The bracket's events are its three transactions. -/
theorem TxnOp.IsBracket.bracketEvents_eq (r0 r1 r2 : Frame) {x y0 y1 y2 : State} {t0 t1 t2 : Trace}
    (h0 : transactionOf op 0 r0 x = (y0, t0)) (h1 : transactionOf op 1 r1 y0 = (y1, t1))
    (h2 : transactionOf op 2 r2 y1 = (y2, t2)) :
    bracketEvents (commandOf op 1 x) x.padr r0 r1 r2 x = (y2, t0 ++ t1 ++ t2) := by
  have e0 : y0 = (transactionOf op 0 r0 x).1 := by rw [h0]
  have e1 : y1 = (transactionOf op 1 r1 y0).1 := by rw [h1]
  have p0 : y0.padr = x.padr := by rw [e0, transactionOf_padr]
  have p1 : y1.padr = x.padr := by rw [e1, transactionOf_padr, p0]
  obtain ⟨c0, -, -⟩ := h.commandOf_eq (s := x) rfl rfl
  obtain ⟨-, c1, -⟩ := h.commandOf_eq (s := y0) (t := x) (by rw [e0, transactionOf_ar]) (by rw [e0, transactionOf_br])
  obtain ⟨-, -, c2⟩ := h.commandOf_eq (s := y1) rfl rfl
  rw [transactionOf, c0] at h0
  rw [transactionOf, c1, p0] at h1
  rw [transactionOf, c2, p1] at h2
  simp only [bracketEvents, h0, h1, h2]

variable {s0 : State} {e : EdgeInputs} {es : List EdgeInputs} {p : Pad} {a b : Byte}

/-- The three transactions of an accepted bracket. -/
theorem Reach.bracket (hr : NoReset es) (hi : s0.seq.ph = .idle) (htp : s0.tp.positive)
    (h2 : p = .pad2 → s0.cfg.hasAtt2 = true) (ho : Offers e (startInstr op p a b))
    (hlen : 3 * txnTicks s0.tp ≤ es.length + 1) {x : State} (hx : x = accepted op p a b s0)
    {z : State × Trace}
    (hz : z = bracketEvents (commandOf op 1 x) x.padr (capturedFrame s0.tp es)
      (capturedFrame s0.tp (es.drop (txnTicks s0.tp))) (capturedFrame s0.tp (es.drop (2 * txnTicks s0.tp))) x) :
    Reach s0 e es (3 * txnTicks s0.tp - 1) z.1 ⟨.interWait, 2, 8, 7, 1⟩ z.2.unitWaits := by
  have hpos := txnTicks_pos htp
  have ht : (0 : Fin 3) < op.last ∧ (0 + 1 : Fin 3) < op.last := by rw [h.last_eq]; decide
  have r0 := Reach.firstTransactionOf hr hi htp h2 ho (by omega) rfl
  have r1 := r0.nextTransactionOf hr htp (by simp) (by simp) ht.1 (by simpa using h2) (by omega)
    (ans := capturedFrame s0.tp (es.drop (txnTicks s0.tp))) (by congr 2; omega)
  have r2 := r1.nextTransactionOf hr htp (by simp) (by simp) ht.2 (by simpa using h2) (by omega)
    (ans := capturedFrame s0.tp (es.drop (2 * txnTicks s0.tp))) (by congr 2; omega)
  rw [← hx] at r2
  rw [hz, h.bracketEvents_eq _ _ _ rfl rfl rfl, unitWaits_append, unitWaits_append]
  exact r2.congr (by omega) rfl

/-- An accepted bracket over exactly three transactions. -/
theorem TxnOp.IsBracket.runs (hr : NoReset es) (hi : s0.seq.ph = .idle) (htp : s0.tp.positive)
    (h2 : p = .pad2 → s0.cfg.hasAtt2 = true) (ho : Offers e (startInstr op p a b))
    (hlen : es.length = 3 * txnTicks s0.tp) {x : State} (hx : x = accepted op p a b s0)
    {z : State × Trace}
    (hz : z = bracketEvents (commandOf op 1 x) x.padr (capturedFrame s0.tp es)
      (capturedFrame s0.tp (es.drop (txnTicks s0.tp))) (capturedFrame s0.tp (es.drop (2 * txnTicks s0.tp))) x) :
    runEdges (e :: es) s0 = .next (settled z.1 2 (anyOffer es)) ∧
    edgeTrace (e :: es) s0 = .wait 1 :: z.2.unitWaits := by
  have hpos := txnTicks_pos htp
  have hop : TxnOp.ofCode z.1.opr = some op := by simp [hz, hx, bracketEvents]
  have herr : z.1.err = s0.err := by simp [hz, hx, bracketEvents]
  have hend := (Reach.bracket h hr hi htp h2 ho (by omega) hx hz).settled hr hop h.last_eq.symm herr (by omega)
  rwa [h.completed_eq] at hend

end Bracket

/-- Settles O32: acceptance, three transactions and the completion (`TxnOp.IsBracket.runs`), for each bracket. -/
theorem bracketRunsAsItsEvents : Obligations.BracketRunsAsItsEvents := by
  intro s e edges p a b hi htp h2 hr hlen r0 r1 r2
  constructor
  · intro ho x
    exact TxnOp.IsBracket.runs (op := .setMode) (.inl rfl) hr hi htp h2 ho hlen rfl rfl
  · intro ho x
    exact TxnOp.IsBracket.runs (op := .enMotors) (.inr rfl) hr hi htp h2 ho hlen rfl rfl

/-! ### The architectural effect (R160) -/

@[simp] theorem settled_arch (x : State) (t : Fin 3) (o : Bool) : (settled x t o).arch = x.arch := rfl

theorem changeMask_eq (old new : Frame) : changeMask old new =
    #v[old[0], old[1], old[2], old[3] ^^^ new[3], old[4] ^^^ new[4], old[5], old[6], old[7], old[8]] := by
  rw [frame_eq_bytes (changeMask old new)]
  simp [changeMask]

/-- Settles O33: the state at the end is that of the line-event level (`pollRunsAsItsEvents`,
`bracketRunsAsItsEvents`), whose architectural part is known. -/
theorem operationsTakeArchitecturalEffect : Obligations.OperationsTakeArchitecturalEffect := by
  intro s e edges p a b hi htp h2 hr
  constructor
  · intro ho hlen r old
    refine ⟨_, (pollRunsAsItsEvents s e edges p a b hi htp h2 ho hr hlen).1, rfl, rfl, ?_⟩
    rw [settled_arch, (pollEvents_state ..).1, changeMask_eq]
  · intro ho hlen
    obtain ⟨hset, hmot⟩ := bracketRunsAsItsEvents s e edges p a b hi htp h2 hr hlen
    rcases ho with ho | ho
    · exact ⟨_, (hset ho).1, rfl, rfl, bracketEvents_arch ..⟩
    · exact ⟨_, (hmot ho).1, rfl, rfl, bracketEvents_arch ..⟩

end Sys2Proof.Machine
end

section
/-! PROOFS. Invariants of the machine (spec/10_state.md R47, R32; spec/70_reset_and_hazards.md R241): what every step
keeps, and who writes what. -/

namespace Sys2Proof.Machine

open Sys2Proof.Safety

/-! ### The sequencer's position (R32) -/

theorem profile_positive (v : Bool) : (Config.profile v).positive :=
  ⟨Nat.succ_pos _, Nat.succ_pos _, Nat.succ_pos _, Nat.succ_pos _⟩

theorem seqInv_resetWith (straps : Straps) (env : Env) : SeqInv (State.resetWith straps env) :=
  ⟨profile_positive _, fun h => absurd rfl h⟩

/-- A wait counter that a phase may begin with. -/
def IsDuration (tp : TimingProfile) (d : Nat) : Prop := 1 ≤ d ∧ d ≤ maxDuration tp

theorem isDuration_of_positive {tp : TimingProfile} (h : tp.positive) : IsDuration tp tp.tAtt ∧
    IsDuration tp tp.tInter ∧ IsDuration tp tp.tHalf ∧ IsDuration tp tp.tAck := by
  obtain ⟨hA, hI, hH, hK⟩ := h
  simp only [IsDuration, maxDuration]
  omega

/-- Within a transaction only the phase, the counters and data change. -/
theorem seqInv_congr {s t : State} (h : SeqInv s) (hi : s.seq.ph ≠ .idle) (htp : t.tp = s.tp) (hcfg : t.cfg = s.cfg)
    (hopr : t.opr = s.opr) (hpadr : t.padr = s.padr) (ht : t.seq.t = s.seq.t) (hw : IsDuration s.tp t.seq.w) :
    SeqInv t := by
  obtain ⟨hpos, hb⟩ := h
  obtain ⟨-, -, hop, h2⟩ := hb hi
  refine ⟨htp ▸ hpos, fun _ => ⟨hw.1, htp ▸ hw.2, ?_, ?_⟩⟩
  · rw [hopr, ht]; exact hop
  · rw [hpadr, hcfg]; exact h2

theorem TxnOp.succ_le_last {op : TxnOp} {t : Fin 3} (h : t < op.last) : t + 1 ≤ op.last := by
  revert t
  cases op <;> decide

/-- The end of a transaction does not stop, and starts the next one or ends the operation. -/
theorem endTransaction_seqInv {s : State} (h : SeqInv s) (hi : s.seq.ph ≠ .idle) :
    ∃ t, endTransaction s = .next t ∧ SeqInv t := by
  obtain ⟨hpos, hb⟩ := id h
  obtain ⟨-, -, ⟨op, hop, hle⟩, h2⟩ := hb hi
  obtain ⟨hA, -⟩ := isDuration_of_positive hpos
  rw [endTransaction, hop]
  simp only
  split
  · next hlt =>
    have hle := TxnOp.succ_le_last hlt
    rw [startTxn_eq hop hle, beginTransaction_ok (by exact h2)]
    exact ⟨_, rfl, hpos, fun _ => ⟨hA.1, hA.2, ⟨op, hop, hle⟩, h2⟩⟩
  · next hlt =>
    rw [if_pos (le_antisymm hle (not_lt.1 hlt))]
    refine ⟨_, rfl, ?_, fun hn => absurd rfl hn⟩
    cases op <;> exact hpos

/-- No edge of the sequencer stops. -/
theorem advance_seqInv {s : State} (h : SeqInv s) (dat : Bool) : ∃ t, advance dat s = .next t ∧ SeqInv t := by
  by_cases hi : s.seq.ph = .idle
  · exact ⟨s, advance_idle hi, h⟩
  obtain ⟨hpos, hb⟩ := id h
  obtain ⟨hw, hmax, -, -⟩ := hb hi
  obtain ⟨-, hI, hH, hK⟩ := isDuration_of_positive hpos
  rcases Nat.eq_or_lt_of_le hw with hw | hw
  swap
  · rw [advance_wait hi hw]
    exact ⟨_, rfl, seqInv_congr h hi rfl rfl rfl rfl rfl ⟨Nat.le_sub_one_of_lt hw, (Nat.sub_le _ _).trans hmax⟩⟩
  rw [advance_end hi hw.symm, endPhase]
  cases hp : s.seq.ph with
  | idle => exact absurd hp hi
  | attWait => exact ⟨_, rfl, seqInv_congr h hi rfl rfl rfl rfl rfl hH⟩
  | clkLow => exact ⟨_, rfl, seqInv_congr h hi rfl rfl rfl rfl rfl hH⟩
  | clkHigh =>
    simp only
    split
    · exact ⟨_, rfl, seqInv_congr h hi rfl rfl rfl rfl rfl hH⟩
    · exact ⟨_, rfl, seqInv_congr h hi rfl rfl rfl rfl rfl hK⟩
  | ackWait =>
    simp only
    split
    · exact ⟨_, rfl, seqInv_congr h hi rfl rfl rfl rfl rfl hH⟩
    · refine ⟨_, rfl, seqInv_congr h hi ?_ ?_ ?_ ?_ rfl hI⟩ <;> simp [releaseAttention, State.setAtt]
  | interWait => exact endTransaction_seqInv h hi

/-- An offered word never stops. -/
theorem offer_seqInv {s : State} (h : SeqInv s) (hi : s.seq.ph = .idle) (hc : BitVec 20) :
    ∃ t, offer hc s = .next t ∧ SeqInv t := by
  have idle {t : State} (htp : t.tp = s.tp) (hseq : t.seq = s.seq) : SeqInv t :=
    ⟨htp ▸ h.1, fun hn => absurd (hseq ▸ hi) hn⟩
  obtain ⟨hA, -⟩ := isDuration_of_positive h.1
  rcases offer_cases hc s with ⟨hb, -⟩ | ⟨-, ho | ⟨-, -, ho⟩ | ⟨-, ho⟩ | ⟨op, h2, -, ho⟩⟩
  · exact absurd hi hb
  · exact ⟨_, ho, idle rfl rfl⟩
  · exact ⟨_, ho, idle rfl rfl⟩
  · exact ⟨_, ho, idle rfl rfl⟩
  · refine ⟨_, ho, ?_, fun _ => ?_⟩
    · cases op <;> exact h.1
    · cases op <;> exact ⟨hA.1, hA.2, ⟨_, rfl, Fin.zero_le _⟩, h2⟩

/-- A clock edge never stops. -/
theorem clockEdge_seqInv {s : State} (h : SeqInv s) (inp : EdgeInputs) :
    ∃ t, clockEdge inp s = .next t ∧ SeqInv t := by
  cases hr : inp.rst with
  | true => exact ⟨_, clockEdge_reset s hr, seqInv_resetWith ..⟩
  | false =>
    by_cases hi : s.seq.ph = .idle
    · rw [clockEdge_idle hr hi]
      split
      · exact offer_seqInv (s := { s with done := false }) h hi _
      · exact ⟨_, rfl, h⟩
    · rw [clockEdge_busy hr hi]
      exact advance_seqInv (s := { s with done := false, err := { s.err with errOvr := _ } }) h _

/-- Settles O48: a step is a clock edge (`clockEdge_seqInv`) or a reading of the query port. -/
theorem sequencerInvariantKept : Obligations.SequencerInvariantKept := by
  intro s h
  have htake : SeqInv s.takeStimulus := by
    unfold State.takeStimulus
    split <;> exact h
  unfold step
  split
  · exact clockEdge_seqInv htake _
  · exact clockEdge_seqInv htake _
  · next qw _ _ =>
    rcases readQuery_cases qw s.takeStimulus with ⟨v, hv⟩ | hv
    · exact ⟨_, hv, htake⟩
    · exact ⟨_, hv, htake⟩

/-! ### The lines (R47) -/

/-- The phases in which no attention line is low. -/
def Phase.Released (ph : Phase) : Prop := ph = .idle ∨ ph = .interWait

/-- Pad by pad: a line is high unless its pad is in `PADR` and the phase is one of a transaction. -/
theorem linesFollowPhase_iff (s : State) : LinesFollowPhase s ↔
    (∀ p, s.level (attLine p) = true ↔ p = s.padr → s.seq.ph.Released) ∧ (s.lClk = true ↔ s.seq.ph ≠ .clkLow) := by
  have forall_pad (P : Pad → Prop) : (∀ p, P p) ↔ P .pad1 ∧ P .pad2 :=
    ⟨fun h => ⟨h _, h _⟩, fun h p => by cases p; exacts [h.1, h.2]⟩
  have eq_decide (v : Bool) (P : Prop) [Decidable P] : v = decide P ↔ (v = true ↔ P) := by cases v <;> simp
  rw [LinesFollowPhase, forall_pad, eq_decide, eq_decide]
  unfold Phase.Released
  cases hp : s.padr <;> simp [attLine, State.level] <;> tauto

/-- With the lines at what the phase says, the invariants of R47 hold. -/
theorem linkInv_of_linesFollowPhase {s : State} (h : LinesFollowPhase s) : LinkInv s := by
  obtain ⟨hatt, hclk⟩ := (linesFollowPhase_iff s).1 h
  have h1 : s.lAtt1 = true ↔ _ := hatt .pad1
  have h2 : s.lAtt2 = true ↔ _ := hatt .pad2
  have released {v : Bool} {p : Pad} (hv : v = true ↔ (p = s.padr → s.seq.ph.Released)) (hlow : v = false) :
      ¬ s.seq.ph.Released := fun hr => by simp [hv.2 fun _ => hr] at hlow
  refine ⟨fun hi => ⟨hclk.2 (by simp [hi]), h1.2 fun _ => .inl hi, h2.2 fun _ => .inl hi⟩, ?_, fun hlow => ?_,
    fun hlow => ?_⟩
  · cases hp : s.padr with
    | pad1 => exact .inr (h2.2 fun hq => by simp [hp] at hq)
    | pad2 => exact .inl (h1.2 fun hq => by simp [hp] at hq)
  · have hr : ¬ s.seq.ph.Released := hlow.elim (released h1) (released h2)
    unfold Phase.Released at hr
    cases hp : s.seq.ph <;> simp [hp] at hr ⊢
  · by_contra hn
    simp [hclk.2 hn] at hlow

/-- An edge that moves no attention line stays among the released phases or among the others. -/
theorem linesFollowPhase_congr {s t : State} (h : LinesFollowPhase s) (hpadr : t.padr = s.padr)
    (h1 : t.lAtt1 = s.lAtt1) (h2 : t.lAtt2 = s.lAtt2) (hph : t.seq.ph.Released ↔ s.seq.ph.Released)
    (hclk : t.lClk = true ↔ t.seq.ph ≠ .clkLow) : LinesFollowPhase t := by
  refine (linesFollowPhase_iff t).2 ⟨fun p => ?_, hclk⟩
  rw [hpadr, hph, ← ((linesFollowPhase_iff s).1 h).1 p]
  cases p
  · exact iff_of_eq (congrArg (· = true) h1)
  · exact iff_of_eq (congrArg (· = true) h2)

/-- The release of attention in one record. -/
theorem releaseAttention_eq (s : State) : releaseAttention s = { s with
    lAtt1 := if s.padr = .pad1 then true else s.lAtt1
    lAtt2 := if s.padr = .pad2 then true else s.lAtt2
    seq := { s.seq with ph := .interWait, w := s.tp.tInter } } := by
  unfold releaseAttention
  cases h : s.padr <;> simp [State.setAtt, attLine, State.setLine, h]

section LinesFollowPhase

variable {s t : State} (h : LinesFollowPhase s)
include h

theorem lClk_of_linesFollowPhase (hph : s.seq.ph ≠ .clkLow) : s.lClk = true :=
  ((linesFollowPhase_iff s).1 h).2.2 hph

/-- At idle the lines follow the phase whatever pad is in `PADR`. -/
theorem linesFollowPhase_padr (hi : s.seq.ph = .idle) (p : Pad) : LinesFollowPhase { s with padr := p } := by
  obtain ⟨hatt, hclk⟩ := (linesFollowPhase_iff s).1 h
  exact (linesFollowPhase_iff _).2 ⟨fun q => iff_of_true ((hatt q).2 fun _ => .inl hi) fun _ => .inl hi, hclk⟩

/-- An edge that sets the attention line of the pad in `PADR` to what the new phase says. -/
theorem linesFollowPhase_of_att (v : Bool) (hpadr : t.padr = s.padr)
    (h1 : t.lAtt1 = if s.padr = .pad1 then v else s.lAtt1) (h2 : t.lAtt2 = if s.padr = .pad2 then v else s.lAtt2)
    (hph : v = true ↔ t.seq.ph.Released) (hclk : t.lClk = true ↔ t.seq.ph ≠ .clkLow) : LinesFollowPhase t := by
  have hlevel (p : Pad) : t.level (attLine p) = if p = s.padr then v else s.level (attLine p) := by
    cases p
    · exact h1.trans (if_congr eq_comm rfl rfl)
    · exact h2.trans (if_congr eq_comm rfl rfl)
  refine (linesFollowPhase_iff t).2 ⟨fun p => ?_, hclk⟩
  rw [hlevel p, hpadr, ← hph]
  split
  · next hp => exact ⟨fun hv _ => hv, fun hv => hv hp⟩
  · next hp => exact iff_of_true ((((linesFollowPhase_iff s).1 h).1 p).2 fun hq => absurd hq hp) fun hq => absurd hq hp

theorem startTxn_linesFollowPhase {n : Fin 3} (hph : s.seq.ph ≠ .clkLow) (hs : startTxn n s = .next t) :
    LinesFollowPhase t := by
  have hclk := lClk_of_linesFollowPhase h hph
  rcases startTxn_cases n s with ⟨r, hr⟩ | ⟨op, -, -, -, hn⟩
  · rw [hr] at hs; cases hs
  · rw [hn] at hs
    cases hs
    exact linesFollowPhase_of_att h false rfl rfl rfl (by simp [Phase.Released]) (iff_of_true hclk (by simp))

/-- An edge of the sequencer keeps the lines at what the phase says. -/
theorem advance_linesFollowPhase {dat : Bool} (ha : advance dat s = .next t) : LinesFollowPhase t := by
  have hclk := lClk_of_linesFollowPhase h
  rcases advance_cases ha with ⟨-, rfl⟩ | ⟨-, -, rfl⟩ | ⟨-, ha⟩
  · exact h
  · exact h
  rcases ha with ⟨hp, rfl⟩ | ⟨hp, rfl⟩ | ⟨hp, -, rfl⟩ | ⟨hp, -, rfl⟩ | ⟨hp, -, rfl⟩ | ⟨hp, -, rfl⟩ | ⟨hp, op, hop, ha⟩
  · exact linesFollowPhase_congr h rfl rfl rfl (by simp [Phase.Released, startByte, hp]) (by simp [startByte])
  · exact linesFollowPhase_congr h rfl rfl rfl (by simp [Phase.Released, captureBit, hp]) (by simp [captureBit])
  · exact linesFollowPhase_congr h rfl rfl rfl (by simp [Phase.Released, startBit, hp]) (by simp [startBit])
  · exact linesFollowPhase_congr h rfl rfl rfl (by simp [Phase.Released, endByte, hp])
      (iff_of_true (hclk (by simp [hp])) (by simp [endByte]))
  · exact linesFollowPhase_congr h rfl rfl rfl (by simp [Phase.Released, startByte, hp]) (by simp [startByte])
  · rw [releaseAttention_eq]
    exact linesFollowPhase_of_att h true rfl rfl rfl (by simp [Phase.Released]) (iff_of_true (hclk (by simp [hp])) (by simp))
  · rcases ha with ⟨-, ha⟩ | ⟨-, rfl⟩
    · exact startTxn_linesFollowPhase h (by simp [hp]) ha
    · refine linesFollowPhase_congr h ?_ ?_ ?_ (by simp [Phase.Released, hp]) (iff_of_true ?_ (by simp))
      any_goals cases op <;> rfl
      have := hclk (by simp [hp])
      cases op <;> exact this

theorem clockEdge_linesFollowPhase {inp : EdgeInputs} (hr : inp.rst = false) (hc : clockEdge inp s = .next t) :
    LinesFollowPhase t := by
  rcases clockEdge_cases hr hc with ⟨hi, rfl | ⟨-, rfl | rfl | ⟨-, rfl⟩ | ⟨op, -, rfl⟩⟩⟩ | ⟨-, ha⟩
  · exact h
  · exact h
  · exact h
  · exact h
  · have hclk := lClk_of_linesFollowPhase h (by simp [hi])
    refine linesFollowPhase_of_att (linesFollowPhase_padr h hi (hostPad inp.hc)) false ?_ rfl rfl
      (by simp [Phase.Released, started]) (iff_of_true ?_ (by simp [started]))
    · exact accepted_padr ..
    · cases op <;> exact hclk
  · exact advance_linesFollowPhase (s := { s with done := false, err := { s.err with errOvr := _ } }) h ha

end LinesFollowPhase

/-- Settles O49, by the three kinds of step: a reset, an edge (`clockEdge_linesFollowPhase`), a reading of the port. -/
theorem linkInvariantKept : Obligations.LinkInvariantKept := by
  intro s t h hs
  have hlines : LinesFollowPhase t := by
    rcases step_cases hs with ⟨inp, rest, -, -, rfl⟩ | ⟨inp, env, hr, hc, -⟩ | ⟨env, rfl, -⟩
    · exact ⟨rfl, fun _ => rfl, fun _ => rfl, rfl⟩
    · exact clockEdge_linesFollowPhase (s := { s with env := env }) h hr hc
    · exact h
  exact ⟨hlines, linkInv_of_linesFollowPhase hlines⟩

/-! ### What an edge of the sequencer leaves alone (R44, R179) -/

theorem startTxn_arch {n : Fin 3} {s t : State} (h : startTxn n s = .next t) : t.arch = s.arch := by
  rcases startTxn_cases n s with ⟨r, hr⟩ | ⟨op, -, -, -, hn⟩
  · rw [hr] at h; cases h
  · rw [hn] at h; cases h; rfl

/-- An edge of the sequencer ends an operation, or it leaves buffers and motor levels alone. -/
theorem advance_ends_or_keeps_arch {dat : Bool} {s t : State} (h : advance dat s = .next t) :
    (∃ op, AtLastTransactionEnd op s ∧ t = endOperation op s) ∨
    (t.arch = s.arch ∧ (s.seq.ph ≠ .idle → t.seq.ph ≠ .idle)) := by
  rcases advance_cases h with ⟨hp, rfl⟩ | ⟨hp, -, rfl⟩ | ⟨-, h⟩
  · exact .inr ⟨rfl, id⟩
  · exact .inr ⟨rfl, id⟩
  rcases h with ⟨-, rfl⟩ | ⟨-, rfl⟩ | ⟨-, -, rfl⟩ | ⟨-, -, rfl⟩ | ⟨-, -, rfl⟩ | ⟨-, -, rfl⟩ | ⟨hp, op, hop, h⟩
  · exact .inr ⟨rfl, by simp [startByte]⟩
  · exact .inr ⟨rfl, by simp [captureBit]⟩
  · exact .inr ⟨rfl, by simp [startBit]⟩
  · exact .inr ⟨rfl, by simp [endByte]⟩
  · exact .inr ⟨rfl, by simp [startByte]⟩
  · rw [releaseAttention_eq]
    exact .inr ⟨rfl, by simp⟩
  · rcases h with ⟨-, h⟩ | ⟨ht, rfl⟩
    · exact .inr ⟨startTxn_arch h, fun _ => by simp [(startTxn_done_ph h).2]⟩
    · exact .inl ⟨op, ⟨hp, hop, ht⟩, rfl⟩

/-- Buffers of a pad whose operation an edge of the sequencer does not run. -/
theorem advance_buffers_other {dat : Bool} {s t : State} {p : Pad} (hp : p ≠ s.padr) (h : advance dat s = .next t) :
    t.cur.get p = s.cur.get p ∧ t.prev.get p = s.prev.get p := by
  rcases advance_ends_or_keeps_arch h with ⟨op, -, rfl⟩ | ⟨harch, -⟩
  · cases op with
    | poll => exact ⟨PerPad.get_set_other _ _ hp, PerPad.get_set_other _ _ hp⟩
    | setMode => exact ⟨rfl, rfl⟩
    | enMotors => exact ⟨rfl, rfl⟩
  · injection harch with hcur hprev
    rw [hcur, hprev]
    exact ⟨rfl, rfl⟩

/-- The attention line of a pad whose operation an edge of the sequencer does not run. -/
theorem advance_lAtt2_of_pad1 {dat : Bool} {s t : State} (hp : s.padr = .pad1) (h : advance dat s = .next t) :
    t.lAtt2 = s.lAtt2 := by
  rcases advance_cases h with ⟨-, rfl⟩ | ⟨-, -, rfl⟩ | ⟨-, h⟩
  · rfl
  · rfl
  rcases h with ⟨-, rfl⟩ | ⟨-, rfl⟩ | ⟨-, -, rfl⟩ | ⟨-, -, rfl⟩ | ⟨-, -, rfl⟩ | ⟨-, -, rfl⟩ | ⟨-, op, -, h⟩
  · rfl
  · rfl
  · rfl
  · rfl
  · rfl
  · simp [releaseAttention_eq, hp]
  · rcases h with ⟨-, h⟩ | ⟨-, rfl⟩
    · rcases startTxn_cases (s.seq.t + 1) s with ⟨r, hr⟩ | ⟨op', -, -, -, hn⟩
      · rw [hr] at h; cases h
      · rw [hn] at h; cases h; simp [hp]
    · cases op <;> rfl

theorem resetWith_absentPad2 (straps : Straps) (env : Env) : AbsentPad2Untouched (State.resetWith straps env) :=
  fun _ => ⟨rfl, rfl, rfl⟩

theorem clockEdge_absentPad2 {inp : EdgeInputs} {s t : State} (hr : inp.rst = false) (hq : SeqInv s)
    (h : AbsentPad2Untouched s) (hc : clockEdge inp s = .next t) : AbsentPad2Untouched t := by
  rcases clockEdge_cases hr hc with ⟨hi, rfl | ⟨-, rfl | rfl | ⟨-, rfl⟩ | ⟨op, h2, rfl⟩⟩⟩ | ⟨hi, ha⟩
  · exact h
  · exact h
  · exact h
  · exact h
  · intro hf
    have hs2 : s.cfg.hasAtt2 = false := by cases op <;> exact hf
    have hp1 : hostPad inp.hc = .pad1 := by
      cases hp : hostPad inp.hc with
      | pad1 => rfl
      | pad2 => rw [h2 hp] at hs2; cases hs2
    rw [hp1]
    obtain ⟨hatt, hcur, hprev⟩ := h hs2
    cases op <;> exact ⟨hatt, hcur, hprev⟩
  · obtain ⟨-, -, hcfg, -⟩ := advance_keeps ha
    intro hf
    have hs2 : s.cfg.hasAtt2 = false := hcfg ▸ hf
    obtain ⟨-, -, -, h2⟩ := hq.2 hi
    have hp1 : s.padr = .pad1 := by
      cases hp : s.padr with
      | pad1 => rfl
      | pad2 => rw [h2 hp] at hs2; cases hs2
    obtain ⟨hcur, hprev⟩ := advance_buffers_other (p := .pad2) (by simp [hp1]) ha
    obtain ⟨hatt, hcur2, hprev2⟩ := h hs2
    exact ⟨(advance_lAtt2_of_pad1 (by exact hp1) ha).trans hatt, hcur.trans hcur2, hprev.trans hprev2⟩

/-- Settles O50: no edge runs an operation of the absent pad (`clockEdge_absentPad2`), and a reset writes zeros. -/
theorem absentPadTwoStaysUntouched : Obligations.AbsentPadTwoStaysUntouched := by
  intro s t hq h hs
  rcases step_cases hs with ⟨inp, rest, -, -, rfl⟩ | ⟨inp, env, hr, hc, -⟩ | ⟨env, rfl, -⟩
  · exact resetWith_absentPad2 inp.straps _
  · exact clockEdge_absentPad2 (s := { s with env := env }) hr hq h hc
  · exact h

/-! ### Flags and configuration (R23, R24, R197) -/

/-- What a step that does not reset can do: one edge without reset, or nothing to the engine. -/
theorem step_noReset_cases {s t : State} (h : step s = .next t) (hr : ¬ ResetsNext s) :
    (∃ inp env, inp.rst = false ∧ clockEdge inp { s with env := env } = .next t ∧
      (s.env.stim = [] ∧ inp.cmdValid = false ∨ ∃ rest, s.env.stim = .edge inp :: rest)) ∨
    ∃ env, t = { s with env := env } := by
  rcases step_cases h with ⟨inp, rest, hs, hrst, -⟩ | hc | ⟨env, ht, -⟩
  · exact absurd ⟨inp, rest, hs, hrst⟩ hr
  · exact .inl hc
  · exact .inr ⟨env, ht⟩

/-- What an edge without reset keeps whatever it does: the configuration, and every flag that is set. -/
theorem clockEdge_keeps {inp : EdgeInputs} {s t : State} (hr : inp.rst = false) (h : clockEdge inp s = .next t) :
    t.cfg = s.cfg ∧ t.tp = s.tp ∧ (s.err.errCfg = true → t.err.errCfg = true) ∧
    (s.err.errOp = true → t.err.errOp = true) ∧ (s.err.errOvr = true → t.err.errOvr = true) := by
  rcases clockEdge_cases hr h with ⟨hi, rfl | ⟨-, rfl | rfl | ⟨-, rfl⟩ | ⟨op, -, rfl⟩⟩⟩ | ⟨-, ha⟩
  · exact ⟨rfl, rfl, id, id, id⟩
  · exact ⟨rfl, rfl, id, fun _ => rfl, id⟩
  · exact ⟨rfl, rfl, fun _ => rfl, id, id⟩
  · exact ⟨rfl, rfl, id, id, id⟩
  · cases op <;> exact ⟨rfl, rfl, id, id, id⟩
  · obtain ⟨-, -, hcfg, htp, herr, -⟩ := advance_keeps ha
    rw [herr]
    exact ⟨hcfg, htp, id, id, fun ho => by simp [ho]⟩

/-- Settles O19: no edge without reset clears a flag (`clockEdge_keeps`). -/
theorem flagsStickyUntilReset : Obligations.FlagsStickyUntilReset := by
  intro s t hs hn
  rcases step_noReset_cases hs hn with ⟨inp, env, hr, hc, -⟩ | ⟨env, rfl⟩
  · obtain ⟨-, -, hflags⟩ := clockEdge_keeps hr hc
    exact hflags
  · exact ⟨id, id, id⟩

/-- Settles O51: no edge without reset writes `CFG` or `TP`, and a reset loads the profile of its platform strap. -/
theorem configurationFixedAtReset : Obligations.ConfigurationFixedAtReset := by
  have kept (s t : State) (hs : step s = .next t) (hn : ¬ ResetsNext s) : t.cfg = s.cfg ∧ t.tp = s.tp := by
    rcases step_noReset_cases hs hn with ⟨inp, env, hr, hc, -⟩ | ⟨env, rfl⟩
    · obtain ⟨hcfg, htp, -⟩ := clockEdge_keeps hr hc
      exact ⟨hcfg, htp⟩
    · exact ⟨rfl, rfl⟩
  refine ⟨kept, fun s t hp hs => ?_⟩
  by_cases hn : ResetsNext s
  · obtain ⟨inp, rest, hstim, hrst⟩ := hn
    rw [step, hstim] at hs
    simp only [clockEdge_reset _ hrst] at hs
    cases hs
    rfl
  · obtain ⟨hcfg, htp⟩ := kept s t hs hn
    rw [hcfg, htp, hp]

/-! ### Who writes the buffers and the motor levels (R21, R22, R25) -/

/-- What an edge without reset can do to `CUR[p]` and `PREV[p]`: nothing, the acceptance of a POLL of that pad, or its
completion. -/
theorem clockEdge_buffers {inp : EdgeInputs} {s t : State} (p : Pad) (hr : inp.rst = false)
    (h : clockEdge inp s = .next t) :
    (t.cur.get p = s.cur.get p ∧ t.prev.get p = s.prev.get p) ∨
    (t.opr = 1 ∧ t.padr = p ∧ s.seq.ph = .idle ∧ t.seq.ph = .attWait ∧ t.cur.get p = s.cur.get p ∧
      t.prev.get p = s.cur.get p) ∨
    (s.opr = 1 ∧ s.padr = p ∧ t.opr = 1 ∧ t.padr = p ∧ s.seq.ph = .interWait ∧ t.seq.ph = .idle ∧ t.done = true ∧
      t.cur.get p = s.resp ∧ t.prev.get p = changeMask (s.prev.get p) s.resp) := by
  rcases clockEdge_cases hr h with ⟨hi, rfl | ⟨-, rfl | rfl | ⟨-, rfl⟩ | ⟨op, -, rfl⟩⟩⟩ | ⟨hi, ha⟩
  · exact .inl ⟨rfl, rfl⟩
  · exact .inl ⟨rfl, rfl⟩
  · exact .inl ⟨rfl, rfl⟩
  · exact .inl ⟨rfl, rfl⟩
  · cases op with
    | setMode => exact .inl ⟨rfl, rfl⟩
    | enMotors => exact .inl ⟨rfl, rfl⟩
    | poll =>
      by_cases hp : p = hostPad inp.hc
      · exact .inr (.inl ⟨rfl, hp.symm, hi, rfl, rfl, hp ▸ PerPad.get_set_same ..⟩)
      · exact .inl ⟨rfl, PerPad.get_set_other _ _ hp⟩
  · rcases advance_ends_or_keeps_arch ha with ⟨op, ⟨hph, hop, -⟩, rfl⟩ | ⟨harch, -⟩
    · have hopr : s.opr = op.code := TxnOp.ofCode_eq_some hop
      cases op with
      | setMode => exact .inl ⟨rfl, rfl⟩
      | enMotors => exact .inl ⟨rfl, rfl⟩
      | poll =>
        by_cases hp : p = s.padr
        · subst hp
          exact .inr (.inr ⟨hopr, rfl, hopr, rfl, hph, rfl, rfl, PerPad.get_set_same .., PerPad.get_set_same ..⟩)
        · exact .inl ⟨PerPad.get_set_other _ _ hp, PerPad.get_set_other _ _ hp⟩
    · injection harch with hcur hprev
      exact .inl ⟨congrArg (·.get p) hcur, congrArg (·.get p) hprev⟩

/-- Settles O52: of what an edge can do to the buffers (`clockEdge_buffers`) only the completion writes `CUR`. -/
theorem currentFrameWrittenOnlyByPoll : Obligations.CurrentFrameWrittenOnlyByPoll := by
  intro s t p hs hn hne
  rcases step_noReset_cases hs hn with ⟨inp, env, hr, hc, -⟩ | ⟨env, rfl⟩
  · rcases clockEdge_buffers p hr hc with ⟨hcur, -⟩ | ⟨-, -, -, -, hcur, -⟩ | ⟨hopr, hpadr, -, -, hph, hph', hd, hcur, -⟩
    · exact absurd hcur hne
    · exact absurd hcur hne
    · exact ⟨hcur, hopr, hpadr, hph, hph', hd⟩
  · exact absurd rfl hne

/-- Settles O53: acceptance and completion write `PREV` (`clockEdge_buffers`). -/
theorem previousFrameWrittenOnlyByPoll : Obligations.PreviousFrameWrittenOnlyByPoll := by
  intro s t p hs hn hne
  rcases step_noReset_cases hs hn with ⟨inp, env, hr, hc, -⟩ | ⟨env, rfl⟩
  · rcases clockEdge_buffers p hr hc with
      ⟨-, hprev⟩ | ⟨hopr, hpadr, hi, hph, -, hprev⟩ | ⟨-, -, hopr, hpadr, hph, hph', -, -, hprev⟩
    · exact absurd hprev hne
    · exact ⟨hopr, hpadr, .inl ⟨hi, hph, hprev⟩⟩
    · exact ⟨hopr, hpadr, .inr ⟨hph, hph', hprev⟩⟩
  · exact absurd rfl hne

/-- What an edge without reset can do to the motor levels of a pad: nothing, or the acceptance of SETMOTORLEVELS. -/
theorem clockEdge_motors {inp : EdgeInputs} {s t : State} (p : Pad) (hr : inp.rst = false)
    (h : clockEdge inp s = .next t) :
    (t.mot1.get p = s.mot1.get p ∧ t.mot2.get p = s.mot2.get p) ∨
    (∃ m1 m2, Offers inp (.setMotorLevels p m1 m2) ∧ s.seq.ph = .idle ∧ t.mot1.get p = m1 ∧ t.mot2.get p = m2) := by
  rcases clockEdge_cases hr h with ⟨hi, rfl | ⟨hv, rfl | rfl | ⟨hd, rfl⟩ | ⟨op, -, rfl⟩⟩⟩ | ⟨hi, ha⟩
  · exact .inl ⟨rfl, rfl⟩
  · exact .inl ⟨rfl, rfl⟩
  · exact .inl ⟨rfl, rfl⟩
  · by_cases hp : p = hostPad inp.hc
    · subst hp
      exact .inr ⟨_, _, ⟨hr, hv, hd⟩, hi, PerPad.get_set_same .., PerPad.get_set_same ..⟩
    · exact .inl ⟨PerPad.get_set_other _ _ hp, PerPad.get_set_other _ _ hp⟩
  · cases op <;> exact .inl ⟨rfl, rfl⟩
  · obtain ⟨h1, h2, -⟩ := advance_keeps ha
    exact .inl ⟨congrArg (·.get p) h1, congrArg (·.get p) h2⟩

/-- Settles O54: a change is an acceptance (`clockEdge_motors`), so the edge is a listed one. -/
theorem motorLevelsWrittenOnlyBySetMotorLevels : Obligations.MotorLevelsWrittenOnlyBySetMotorLevels := by
  intro s t p hs hn hne
  rcases step_noReset_cases hs hn with ⟨inp, env, hr, hc, hstim⟩ | ⟨env, rfl⟩
  · rcases clockEdge_motors p hr hc with ⟨h1, h2⟩ | ⟨m1, m2, ho, hi, h1, h2⟩
    · exact hne.elim (absurd h1) (absurd h2)
    · rcases hstim with ⟨-, hv⟩ | ⟨rest, hstim⟩
      · obtain ⟨-, hv', -⟩ := ho
        rw [hv] at hv'; cases hv'
      · exact ⟨inp, rest, m1, m2, hstim, ho, hi, h1, h2⟩
  · exact hne.elim (absurd rfl) (absurd rfl)

/-! ### What nothing reads (R23, R44, R37) -/

/-- An edge leaves the model's own fields alone. -/
theorem clockEdge_keeps_env {inp : EdgeInputs} {s t : State} (h : clockEdge inp s = .next t) : t.env = s.env := by
  cases hr : inp.rst with
  | true =>
    rw [clockEdge_reset s hr] at h
    cases h
    rfl
  | false =>
    have henv := clockEdge_env inp s.env s hr
    rw [show { s with env := s.env } = s from rfl, h] at henv
    injection henv with ht
    rw [ht]

/-- Settles O56: `PS2_ACK` stands in no rule; `HAS_ACK` is put aside (`clockEdge_aside`). -/
theorem acknowledgeNeverRead : Obligations.AcknowledgeNeverRead := by
  refine ⟨fun s inp v => rfl, fun s inp v hr => ?_⟩
  have haside := clockEdge_aside inp v s.env s hr
  refine haside.trans ?_
  cases h : clockEdge inp s with
  | fault r => rfl
  | refused r => rfl
  | next t => simp only [andThen_next, ← clockEdge_keeps_env h]

end Sys2Proof.Machine
end

section
/-! PROOFS. Noninterference (spec/10_state.md R37, spec/42_session_ops.md R156): what the sequencer does next does not
depend on data. Two engines that agree on control are the same engine with its data erased, and an edge commutes with
erasing. -/

namespace Sys2Proof.Machine

open Sys2Proof.Safety

/-! ### Erasing the data -/

/-- The engine with everything that `SameControl` leaves open at its reset value. -/
def erased (s : State) : State :=
  { State.reset with
    cfg := s.cfg, tp := s.tp, err := s.err, opr := s.opr, padr := s.padr, seq := s.seq
    lClk := s.lClk, lAtt1 := s.lAtt1, lAtt2 := s.lAtt2, done := s.done }

/-- An edge with what `SameControlInputs` leaves open at fixed values. -/
def erasedInputs (e : EdgeInputs) : EdgeInputs :=
  { e with hc := hostWord (hostOp e.hc) (hostPad e.hc) 0 0, dat := false, ack := false }

/-- An outcome up to data. -/
def control (o : Result) : Result := andThen o fun s => .next (erased s)

theorem erased_eq_iff (s t : State) : erased s = erased t ↔ SameControl s t := by
  simp [erased, SameControl]

theorem erasedInputs_eq {e f : EdgeInputs} (h : SameControlInputs e f) : erasedInputs e = erasedInputs f := by
  obtain ⟨hr, hs, hv, ho, hp⟩ := h
  simp only [erasedInputs, hr, hs, hv, ho, hp]

theorem agree_of_control_eq {o o' : Result} (h : control o = control o') : Agree SameControl o o' := by
  cases o <;> cases o' <;> simp only [control, andThen_next, andThen_fault, andThen_refused, reduceCtorEq] at h
  · exact (erased_eq_iff _ _).1 (Host.Outcome.next.inj h)
  · exact Host.Outcome.fault.inj h
  · exact Host.Outcome.refused.inj h

/-! ### An edge of the sequencer -/

theorem control_beginTransaction (cmd cmd' : Frame) (s : State) :
    control (beginTransaction cmd s) = control (beginTransaction cmd' (erased s)) := by
  rw [beginTransaction_eq, beginTransaction_eq]
  by_cases h : s.padr = .pad2 ∧ s.cfg.hasAtt2 = false
  · rw [if_pos h, if_pos (show (erased s).padr = .pad2 ∧ (erased s).cfg.hasAtt2 = false from h)]
  · rw [if_neg h, if_neg (show ¬ ((erased s).padr = .pad2 ∧ (erased s).cfg.hasAtt2 = false) from h)]
    rfl

theorem control_startTxn (n : Fin 3) (s : State) : control (startTxn n s) = control (startTxn n (erased s)) := by
  by_cases h : ∃ op, TxnOp.ofCode s.opr = some op ∧ n ≤ op.last
  · obtain ⟨op, hop, hn⟩ := h
    rw [startTxn_eq hop hn, startTxn_eq (s := erased s) hop hn]
    exact control_beginTransaction ..
  · rw [startTxn_fault fun op hop hn => h ⟨op, hop, hn⟩,
      startTxn_fault (s := erased s) fun op hop hn => h ⟨op, hop, hn⟩]

theorem control_endTransaction (s : State) : control (endTransaction s) = control (endTransaction (erased s)) := by
  unfold endTransaction
  simp only [show (erased s).seq = s.seq from rfl, show (erased s).opr = s.opr from rfl]
  split
  · rfl
  split
  · exact control_startTxn ..
  split
  · next op _ _ _ => cases op <;> rfl
  · rfl

theorem control_advance (dat : Bool) (s : State) : control (advance dat s) = control (advance false (erased s)) := by
  unfold advance
  simp only [show (erased s).seq = s.seq from rfl]
  split
  · rfl
  split
  · rfl
  split
  swap
  · rfl
  unfold endPhase
  simp only [show (erased s).seq = s.seq from rfl]
  split
  · rfl
  · rfl
  · rfl
  · split <;> rfl
  · split
    · rfl
    · rw [releaseAttention_eq, releaseAttention_eq]
      rfl
  · exact control_endTransaction s

/-! ### An offered word -/

theorem control_exec_start (op : TxnOp) (p : Pad) (a b : Byte) (s : State) :
    control (exec (startInstr op p a b) s) = control (exec (startInstr op p 0 0) (erased s)) := by
  by_cases hi : s.seq.ph = .idle
  · by_cases h2 : p = .pad2 → s.cfg.hasAtt2 = true
    · rw [exec_start_ok hi h2, exec_start_ok (s := erased s) hi h2]
      cases op <;> rfl
    · obtain ⟨rfl, hf⟩ := Classical.not_imp.mp h2
      have hf : s.cfg.hasAtt2 = false := by simpa using hf
      rw [exec_start_noLine hi hf, exec_start_noLine (s := erased s) hi hf]
      rfl
  · rw [exec_startInstr, exec_startInstr, accept_busy hi, accept_busy (s := erased s) hi]
    rfl

theorem control_execSetMotorLevels (p : Pad) (a b : Byte) (s : State) :
    control (execSetMotorLevels p a b s) = control (execSetMotorLevels p 0 0 (erased s)) := by
  unfold execSetMotorLevels
  simp only [show (erased s).busy = s.busy from rfl]
  split <;> rfl

theorem control_acceptReserved (s : State) : control (acceptReserved s) = control (acceptReserved (erased s)) := by
  unfold acceptReserved
  simp only [show (erased s).busy = s.busy from rfl]
  split <;> rfl

theorem control_offer (hc : BitVec 20) (s : State) :
    control (offer hc s) = control (offer (hostWord (hostOp hc) (hostPad hc) 0 0) (erased s)) := by
  have enc {i : Instr} (h : encode i = .hostCmd (hostWord (hostOp hc) (hostPad hc) 0 0)) := decodeHostCmd_of_encode h
  unfold offer
  rcases decodeHostCmd_cases hc with ⟨ho, hd⟩ | ⟨ho, hd⟩ | ⟨ho, hd⟩ | ⟨ho, hd⟩ | ⟨ho, hd⟩
  · rw [hd, enc (i := .poll (hostPad hc) 0 0) (by rw [ho]; rfl)]
    exact control_exec_start .poll ..
  · rw [hd, enc (i := .setMode (hostPad hc) 0 0) (by rw [ho]; rfl)]
    exact control_exec_start .setMode ..
  · rw [hd, enc (i := .enMotors (hostPad hc) 0 0) (by rw [ho]; rfl)]
    exact control_exec_start .enMotors ..
  · rw [hd, enc (i := .setMotorLevels (hostPad hc) 0 0) (by rw [ho]; rfl)]
    exact control_execSetMotorLevels ..
  · obtain ⟨hop, -⟩ := hostWord_fields (hostOp hc) (hostPad hc) 0 0
    rw [hd, decodeHostCmd_reserved (hc := hostWord (hostOp hc) (hostPad hc) 0 0) (by rw [hop]; exact ho)]
    exact control_acceptReserved s

/-! ### A clock edge -/

/-- A clock edge commutes with erasing. -/
theorem control_clockEdge (e : EdgeInputs) (s : State) :
    control (clockEdge e s) = control (clockEdge (erasedInputs e) (erased s)) := by
  cases hr : e.rst with
  | true =>
    rw [clockEdge_reset s hr, clockEdge_reset (inp := erasedInputs e) (erased s) hr]
    rfl
  | false =>
    by_cases hi : s.seq.ph = .idle
    · rw [clockEdge_idle hr hi, clockEdge_idle (inp := erasedInputs e) (s := erased s) hr hi]
      show control (if e.cmdValid then _ else _) = control (if e.cmdValid then _ else _)
      split
      · exact control_offer e.hc { s with done := false }
      · rfl
    · rw [clockEdge_busy hr hi, clockEdge_busy (inp := erasedInputs e) (s := erased s) hr hi]
      exact control_advance ..

/-- Settles O55: agreeing on control is being the same with the data erased (`erased_eq_iff`), and an edge commutes with
erasing (`control_clockEdge`). -/
theorem sequencingIndependentOfData : Obligations.SequencingIndependentOfData := by
  intro s t e f hst hef
  refine agree_of_control_eq ?_
  rw [control_clockEdge e s, control_clockEdge f t, (erased_eq_iff s t).2 hst, erasedInputs_eq hef]

end Sys2Proof.Machine
end

section
/-! PROOFS. Steps, acceptance and wire commands (spec/10_state.md R40 to R42, spec/42_session_ops.md R150 to R154,
spec/41_frame_formatter.md R142 to R148, spec/70_reset_and_hazards.md R241). -/

namespace Sys2Proof.Machine

open Sys2Proof.Safety

/-! ### One step (R40, R42) -/

theorem step_edge {s : State} {inp : EdgeInputs} {rest : List Stimulus} (h : s.env.stim = .edge inp :: rest) :
    step s = clockEdge inp { s with env := { s.env with stim := rest } } := by
  simp only [step, State.takeStimulus, h]

theorem step_query {s : State} {qw : BitVec 8} {rest : List Stimulus} (h : s.env.stim = .query qw :: rest) :
    step s = readQuery qw { s with env := { s.env with stim := rest } } := by
  simp only [step, State.takeStimulus, h]

/-- Settles O6: the step is a clock edge (`step_edge`) that offers the word. -/
theorem stepRunsOfferedInstruction : Obligations.StepRunsOfferedInstruction := by
  intro s inp rest i hs ho
  obtain ⟨hr, hv, hd⟩ := ho
  rw [step_edge hs, clockEdge, hr, hv, offer, hd]
  rfl

/-- Settles O7: the step is a reading of the port (`step_query`). -/
theorem stepRunsQuery : Obligations.StepRunsQuery := by
  intro s qw rest i hs hd
  rw [step_query hs, readQuery, hd]

/-- Settles O11: a reset edge reads the straps and the environment alone. -/
theorem resetEdgeFromAnyState : Obligations.ResetEdgeFromAnyState := by
  intro s inp rest hs hr
  refine ⟨by rw [step_edge hs, clockEdge_reset _ hr], fun s' henv => ?_⟩
  rw [step_edge hs, step_edge (henv ▸ hs), clockEdge_reset _ hr, clockEdge_reset _ hr, henv]

/-! ### Runs over listed edges -/

/-- An edge does the same in every environment, a reset included. -/
theorem clockEdge_with_env (inp : EdgeInputs) (env : Env) (s : State) :
    clockEdge inp { s with env := env } = andThen (clockEdge inp s) fun t => .next { t with env := env } := by
  cases hr : inp.rst with
  | true =>
    rw [clockEdge_reset _ hr, clockEdge_reset _ hr]
    rfl
  | false => exact clockEdge_env inp env s hr

/-- Settles O9, by induction on the edges: each is taken off the list by one step. -/
theorem runOverListedEdges : Obligations.RunOverListedEdges := by
  intro edges rest
  induction edges with
  | nil =>
    intro s hs
    rw [show rest = s.env.stim from hs.symm]
    rfl
  | cons e edges ih =>
    intro s hs
    rw [List.map_cons, List.cons_append] at hs
    rw [List.length_cons, run_succ, step_edge hs, runEdges, clockEdge_with_env e { s.env with stim := rest },
      clockEdge_with_env, andThen_assoc]
    refine (andThen_assoc ..).trans ?_
    congr 1
    funext t
    exact ih { t with env := { s.env with stim := edges.map .edge ++ rest } } rfl

/-! ### Acceptance (R150 to R154) -/

/-- Settles O12: the state of an accepted POLL (`exec_start_ok`). -/
theorem pollAccepted : Obligations.PollAccepted := fun _ _ _ _ hi h2 => exec_start_ok (op := .poll) hi h2

/-- Settles O13: the state of an accepted bracket (`exec_start_ok`). -/
theorem bracketAccepted : Obligations.BracketAccepted := fun _ _ _ _ hi h2 =>
  ⟨exec_start_ok (op := .setMode) hi h2, exec_start_ok (op := .enMotors) hi h2⟩

theorem exec_setMotorLevels_idle {s : State} (hi : s.seq.ph = .idle) (p : Pad) (m1 m2 : Byte) :
    exec (.setMotorLevels p m1 m2) s = .next { s with mot1 := s.mot1.set p m1, mot2 := s.mot2.set p m2 } :=
  if_neg (by simp [hi])

theorem exec_setMotorLevels_busy {s : State} (hb : s.seq.ph ≠ .idle) (p : Pad) (m1 m2 : Byte) :
    exec (.setMotorLevels p m1 m2) s = .next (s.raise .errOvr) :=
  if_pos (by simp [hb])

/-- Settles O14, idle and busy. -/
theorem motorLevelsWritten : Obligations.MotorLevelsWritten := fun _ p m1 m2 =>
  ⟨fun hi => exec_setMotorLevels_idle hi p m1 m2, fun hb => exec_setMotorLevels_busy hb p m1 m2⟩

/-- Settles O21: at idle two motor bytes are written, while busy a flag (`exec_setMotorLevels_idle`,
`exec_setMotorLevels_busy`). -/
theorem motorLevelsFrame : Obligations.MotorLevelsFrame := by
  intro s t p m1 m2 h
  by_cases hi : s.seq.ph = .idle
  · rw [exec_setMotorLevels_idle hi] at h
    cases h
    refine ⟨fun d => read_congr rfl rfl rfl rfl d, ?_⟩
    simp
  · rw [exec_setMotorLevels_busy hi] at h
    cases h
    refine ⟨fun d => read_congr rfl rfl rfl rfl d, ?_⟩
    simp [State.raise]

/-- Settles O15: the edge that accepts SETMOTORLEVELS is `exec` of it in an idle engine, and so is the next. -/
theorem pollAfterMotorLevelsSendsThem : Obligations.PollAfterMotorLevelsSendsThem := by
  intro s e f p m1 m2 a b hi h2 he hf
  have hfirst : clockEdge e s = _ :=
    (clockEdge_idle_offers hi he).trans (exec_setMotorLevels_idle (s := { s with done := false }) hi p m1 m2)
  refine ⟨⟨_, hfirst, by simp [hi], rfl, fun l => by cases l <;> rfl⟩, ?_⟩
  rw [runEdges, hfirst, andThen_next, runEdges, clockEdge_idle_offers (by exact hi) hf]
  rw [pollAccepted _ p a b (by exact hi) (by exact h2), andThen_next]
  refine ⟨_, rfl, by simp, ?_⟩
  simp

/-- What an offered operation that starts transactions can do. -/
theorem exec_start_cases {op : TxnOp} {p : Pad} {a b : Byte} {s t : State}
    (h : exec (startInstr op p a b) s = .next t) :
    t = s.raise .errOvr ∨ t = s.raise .errCfg ∨ t = started op p a b s := by
  by_cases hi : s.seq.ph = .idle
  · by_cases h2 : p = .pad2 → s.cfg.hasAtt2 = true
    · rw [exec_start_ok hi h2] at h
      exact .inr (.inr (Host.Outcome.next.inj h).symm)
    · obtain ⟨rfl, hf⟩ := Classical.not_imp.mp h2
      rw [exec_start_noLine hi (by simpa using hf)] at h
      exact .inr (.inl (Host.Outcome.next.inj h).symm)
  · rw [exec_startInstr, accept_busy hi] at h
    exact .inl (Host.Outcome.next.inj h).symm

/-- The bytes that the acceptance of an operation leaves alone. -/
theorem started_read {op : TxnOp} {p : Pad} {a b : Byte} {s : State} {d : Addr} (hc : ∀ j, d ≠ .cbuf j)
    (hp : op = .poll → ∀ j, d ≠ .prev p j) : (started op p a b s).read d = s.read d := by
  cases d with
  | cbuf j => exact absurd rfl (hc j)
  | cur q j => cases op <;> rfl
  | resp j => cases op <;> rfl
  | prev q j =>
    cases op with
    | setMode => rfl
    | enMotors => rfl
    | poll =>
      have hq : q ≠ p := fun hq => hp rfl j (hq ▸ rfl)
      show ((s.prev.set p (s.cur.get p)).get q)[j] = (s.prev.get q)[j]
      rw [PerPad.get_set_other _ _ hq]

/-- Settles O20: an offered operation sets a flag or is started (`exec_start_cases`). -/
theorem startingOperationFrame : Obligations.StartingOperationFrame := by
  intro s t i p a b hop h
  obtain ⟨op, rfl⟩ : ∃ op, i = startInstr op p a b := by
    rcases hop with rfl | rfl | rfl
    exacts [⟨.poll, rfl⟩, ⟨.setMode, rfl⟩, ⟨.enMotors, rfl⟩]
  rcases exec_start_cases h with rfl | rfl | rfl
  · exact ⟨fun d _ _ => read_congr rfl rfl rfl rfl d, rfl, rfl, rfl, rfl, rfl, rfl, rfl, rfl, fun _ => rfl, fun _ => rfl,
      rfl, rfl, rfl⟩
  · exact ⟨fun d _ _ => read_congr rfl rfl rfl rfl d, rfl, rfl, rfl, rfl, rfl, rfl, rfl, rfl, fun _ => rfl, fun _ => rfl,
      rfl, rfl, rfl⟩
  · refine ⟨fun d hc hp => started_read hc fun ho => hp (ho ▸ rfl), ?_⟩
    cases op <;> exact ⟨rfl, rfl, rfl, rfl, rfl, rfl, rfl, rfl, fun hp => by subst hp; rfl, fun hp => by subst hp; rfl,
      rfl, rfl, rfl⟩

/-! ### Wire commands (R142 to R148) -/

/-- The meaning of a wire command is the start of the transaction that sends its nine bytes. -/
theorem exec_wireCmd {i : Instr} {f : Frame} (h : encode i = .wireCmd f) (s : State) :
    exec i s = beginTransaction f s := by
  cases i <;> simp only [encode, CodeWord.wireCmd.injEq, reduceCtorEq] at h <;> subst h <;> rfl

/-- Settles O22: past its check `beginTransaction` is the stated record. -/
theorem wireCommandStartsTransaction : Obligations.WireCommandStartsTransaction := fun s _ _ h h2 =>
  (exec_wireCmd h s).trans (beginTransaction_ok h2)

/-- Settles O24: the check of `beginTransaction` fails. -/
theorem noTransactionWithoutAttentionLine : Obligations.NoTransactionWithoutAttentionLine := by
  intro s i f h hp hf
  rw [exec_wireCmd h, beginTransaction_eq, if_pos ⟨hp, hf⟩]

/-- Settles O23: a wire command stops or starts its transaction (`beginTransaction_eq`). -/
theorem wireCommandFrame : Obligations.WireCommandFrame := by
  intro s t i f h hs
  rw [exec_wireCmd h, beginTransaction_eq] at hs
  split at hs
  · cases hs
  · cases hs
    refine ⟨fun d hd => ?_, fun hp => by simp [hp], fun hp => by simp [hp], rfl, rfl, rfl, rfl⟩
    cases d with
    | cbuf j => exact absurd rfl (hd j)
    | cur p j => rfl
    | prev p j => rfl
    | resp j => rfl

/-- The end of a transaction that is not the last starts the next one. -/
theorem advance_startsNext {s : State} {op : TxnOp} (dat : Bool) (hp : s.seq.ph = .interWait) (hw : s.seq.w = 1)
    (hop : TxnOp.ofCode s.opr = some op) (ht : s.seq.t < op.last) :
    advance dat s = beginTransaction (commandOf op (s.seq.t + 1) s) { s with seq := { s.seq with t := s.seq.t + 1 } } := by
  rw [advance_end (by simp [hp]) hw, endPhase, hp]
  simp only
  rw [endTransaction, hop]
  simp only
  rw [if_pos ht, startTxn_eq hop (TxnOp.succ_le_last ht)]

/-- Settles O8: acceptance and the start of a wire command are the same state, and the end of a transaction is the
start of the next one (`advance_startsNext`). -/
theorem sequencerRunsWireCommands : Obligations.SequencerRunsWireCommands := by
  refine ⟨fun s p a b hi h2 => ⟨?_, ?_, ?_⟩, fun s dat hp hw => ⟨fun ho ht => ?_, fun ho ht => ?_, fun ho ht => ?_⟩⟩
  · rw [exec_wireCmd (i := .pollCmd _ _) rfl, beginTransaction_ok (by exact h2)]
    exact exec_start_ok (op := .poll) hi h2
  · rw [exec_wireCmd (i := .enterCfg) rfl, beginTransaction_ok (by exact h2)]
    exact exec_start_ok (op := .setMode) hi h2
  · rw [exec_wireCmd (i := .enterCfg) rfl, beginTransaction_ok (by exact h2)]
    exact exec_start_ok (op := .enMotors) hi h2
  · rw [exec_wireCmd rfl, advance_startsNext (op := .setMode) dat hp hw (by rw [ho]; rfl) (by rw [ht]; decide), ht]
    rfl
  · rw [exec_wireCmd rfl, advance_startsNext (op := .enMotors) dat hp hw (by rw [ho]; rfl) (by rw [ht]; decide), ht]
    rfl
  · rw [exec_wireCmd rfl]
    rcases ho with ho | ho
    · rw [advance_startsNext (op := .setMode) dat hp hw (by rw [ho]; rfl) (by rw [ht]; decide), ht]
      rfl
    · rw [advance_startsNext (op := .enMotors) dat hp hw (by rw [ho]; rfl) (by rw [ht]; decide), ht]
      rfl

/-! ### The rows of the sequencer (R241) -/

/-- Settles O42: the rows of an idle engine and of a wait. -/
theorem waitRowsCountDown : Obligations.WaitRowsCountDown := by
  intro s inp hr hv
  refine ⟨fun hi => ?_, fun hb hw => ?_⟩
  · rw [clockEdge_idle hr hi, if_neg (by simp [hv])]
  · rw [clockEdge_busy_noOffer hr hb hv, advance_wait (by exact hb) (by exact hw)]

/-- Settles O43: at the end of a phase the edge is its row (`advance_end`). -/
theorem byteRowsOfSequencer : Obligations.ByteRowsOfSequencer := by
  intro s dat hw
  have row {ph : Phase} (hp : s.seq.ph = ph) (hb : ph ≠ .idle) : advance dat s = endPhase dat s :=
    advance_end (hp ▸ hb) hw
  refine ⟨fun hp => ?_, fun hp => ?_, fun hp hk => ?_, fun hp hk => ?_, fun hp hi => ?_, fun hp hi => ?_⟩
  · rw [row hp (by simp), endPhase, hp]
    rfl
  · rw [row hp (by simp), endPhase, hp]
    simp only [captureBit, shiftIn_eq_append]
    rfl
  · rw [row hp (by simp), endPhase, hp]
    simp only
    rw [if_pos (c := s.seq.k < 7) hk]
    rfl
  · rw [row hp (by simp), endPhase, hp]
    simp only
    rw [if_neg (c := s.seq.k < 7) (Nat.not_lt.2 (Nat.le_of_eq hk.symm))]
    rfl
  · rw [row hp (by simp), endPhase, hp]
    simp only
    have hval : (s.seq.i + 1).val = s.seq.i.val + 1 := by
      rw [Fin.val_add]
      exact Nat.mod_eq_of_lt (Nat.add_lt_add_right hi 1)
    rw [if_pos (c := s.seq.i < 8) hi]
    simp only [startByte, Fin.getElem_fin, hval]
    rfl
  · rw [row hp (by simp), endPhase, hp]
    simp only
    rw [if_neg (c := s.seq.i < 8) (Nat.not_lt.2 (Nat.le_of_eq hi.symm)), releaseAttention_eq]

section StoreResponse

variable (p : Pad) (s : State)

theorem storeResponse_read_cur (i : Fin 9) : (storeResponse p s).read (.cur p i) = s.read (.resp i) := by
  simp [State.read, storeResponse]

theorem storeResponse_read_prev {j : Fin 9} (hj : j = 3 ∨ j = 4) :
    (storeResponse p s).read (.prev p j) = s.read (.prev p j) ^^^ s.read (.resp j) := by
  simp only [State.read, storeResponse, PerPad.get_set_same]
  exact changeMask_getElem _ _ hj

theorem storeResponse_read_other {d : Addr} (hc : ∀ i, d ≠ .cur p i) (h3 : d ≠ .prev p 3) (h4 : d ≠ .prev p 4) :
    (storeResponse p s).read d = s.read d := by
  cases d with
  | resp i => rfl
  | cbuf i => rfl
  | cur q i =>
    have hq : q ≠ p := fun hq => hc i (hq ▸ rfl)
    simp only [State.read, storeResponse, PerPad.get_set_other _ _ hq]
  | prev q i =>
    by_cases hq : q = p
    · subst hq
      simp only [State.read, storeResponse, PerPad.get_set_same]
      exact changeMask_getElem_other _ _ (fun h => h3 (h ▸ rfl)) (fun h => h4 (h ▸ rfl))
    · simp only [State.read, storeResponse, PerPad.get_set_other _ _ hq]

end StoreResponse

/-- The end of the last transaction is the end of the operation. -/
theorem advance_endsOperation {s : State} {op : TxnOp} (dat : Bool) (hp : s.seq.ph = .interWait) (hw : s.seq.w = 1)
    (hop : TxnOp.ofCode s.opr = some op) (ht : s.seq.t = op.last) : advance dat s = .next (endOperation op s) := by
  rw [advance_end (by simp [hp]) hw, endPhase, hp]
  simp only
  rw [endTransaction, hop]
  simp only
  rw [if_neg (by rw [ht]; exact lt_irrefl _), if_pos ht]

/-- Settles O44, by the row of the sequencer (`advance_endsOperation`) and the bytes that POLL stores. -/
theorem completionRowsOfSequencer : Obligations.CompletionRowsOfSequencer := by
  intro s dat hp hw
  refine ⟨fun ho ht => ?_, fun ho ht => ?_⟩
  · exact ⟨_, advance_endsOperation (op := .poll) dat hp hw (by rw [ho]; rfl) ht, storeResponse_read_cur _ s,
      storeResponse_read_prev _ s (.inl rfl), storeResponse_read_prev _ s (.inr rfl),
      fun d => storeResponse_read_other _ s, rfl⟩
  · rcases ho with ho | ho
    · exact advance_endsOperation (op := .setMode) dat hp hw (by rw [ho]; rfl) ht
    · exact advance_endsOperation (op := .enMotors) dat hp hw (by rw [ho]; rfl) ht

/-- Settles O46: the four bits of the word that `STATUS` is. -/
theorem statusPortBits : Obligations.StatusPortBits := by
  have bits : ∀ v2 v1 v0 busy : Bool,
      let w := BitVec.ofBool v2 ++ BitVec.ofBool v1 ++ BitVec.ofBool v0 ++ BitVec.ofBool busy
      w.getLsbD 0 = busy ∧ w.getLsbD 1 = v0 ∧ w.getLsbD 2 = v1 ∧ w.getLsbD 3 = v2 := by decide
  intro s
  obtain ⟨hbusy, hflags⟩ := bits s.err.errOvr s.err.errOp s.err.errCfg s.busy
  exact ⟨(Bool.eq_iff_iff.1 hbusy).trans (busy_eq_true s), hflags⟩

/-- Settles O47: the invariants of the reset state, each by what reset writes. -/
theorem resetStateMeetsInvariants : Obligations.ResetStateMeetsInvariants := by
  have hlines : LinesFollowPhase State.reset := ⟨rfl, fun _ => rfl, fun _ => rfl, rfl⟩
  exact ⟨seqInv_resetWith .., hlines, linkInv_of_linesFollowPhase hlines, fun _ => ⟨rfl, rfl, rfl⟩, ⟨rfl, rfl, rfl⟩, rfl⟩

end Sys2Proof.Machine
end

section
/-! PROOFS. The query port (spec/43_button_decoder.md R173, R178; spec/20_memory.md R68, R69): what AXIS answers, what a
query leaves alone, when its answer is free, and the properties of the decoder. -/

namespace Sys2Proof.Machine

open Sys2Proof.Safety

/-! ### AXIS (R173) -/

theorem axisByte_axisIndex_val {sel : BitVec 4} (h : sel.toNat < 4) : (axisByte (axisIndex sel)).val = 5 + sel.toNat := by
  revert sel
  decide

theorem exec_axis_reserved (p : Pad) {sel : BitVec 4} (h : 4 ≤ sel.toNat) (s : State) :
    exec (.axis p sel) s = .next s.reportFree :=
  if_neg fun hl => absurd ((axisSelector_legal_iff sel).1 hl) (Nat.not_lt.2 h)

/-- Settles O37: a legal selector reads byte `5 + a`, another one a free value. -/
theorem axisQueryAnswers : Obligations.AxisQueryAnswers := by
  intro s p sel hi
  refine ⟨fun h => ?_, fun h => exec_axis_reserved p h s⟩
  rw [exec_axis_idle hi p sel h]
  simp only [Fin.getElem_fin, axisByte_axisIndex_val h]

/-! ### What a query leaves alone, and when its answer is free (R68, R69) -/

/-- A report on the query port changes the environment's record alone. -/
theorem report_changes_env {s t : State} (h : (∃ v, t = s.report v) ∨ t = s.reportFree) :
    (∀ d : Addr, t.read d = s.read d) ∧ t.env.stim = s.env.stim ∧ t = { s with env := t.env } := by
  rcases h with ⟨v, rfl⟩ | rfl <;> exact ⟨fun d => read_congr rfl rfl rfl rfl d, rfl, rfl⟩

/-- Settles O39: a query instruction and a reading of the port only report (`exec_query`, `readQuery_cases`). -/
theorem queriesChangeNoEngineState : Obligations.QueriesChangeNoEngineState := by
  have reports {s : State} {o : Result} (h : (∃ v, o = .next (s.report v)) ∨ o = .next s.reportFree) :
      ∃ t, o = .next t ∧ (∀ d : Addr, t.read d = s.read d) ∧ t.env.stim = s.env.stim ∧ t = { s with env := t.env } := by
    rcases h with ⟨v, rfl⟩ | rfl
    · exact ⟨_, rfl, report_changes_env (.inl ⟨v, rfl⟩)⟩
    · exact ⟨_, rfl, report_changes_env (.inr rfl)⟩
  exact ⟨fun s i qw h => reports (exec_query h s), fun s qw => reports (readQuery_cases qw s)⟩

theorem exec_query_busy {i : Instr} {qw : BitVec 8} (h : encode i = .query qw) {s : State} (hb : s.seq.ph ≠ .idle) :
    exec i s = .next s.reportFree := by
  cases i <;> simp only [encode, reduceCtorEq] at h
  case axis p sel =>
    simp only [exec, execAxis]
    split
    · exact answer_busy hb
    · rfl
  all_goals exact answer_busy hb

/-- The only ill-formed instruction is AXIS with a reserved selector (R99). -/
theorem exec_illFormed {i : Instr} (h : i.wellFormed = false) (s : State) : exec i s = .next s.reportFree := by
  cases i <;> simp only [Instr.wellFormed, reduceCtorEq] at h
  case axis p sel => exact if_neg (of_decide_eq_false h)

theorem readQuery_reserved {qw : BitVec 8}
    (h : queryOp qw = 6 ∨ queryOp qw = 7 ∨ (queryOp qw = 3 ∧ 4 ≤ (querySel qw).toNat)) (s : State) :
    readQuery qw s = .next s.reportFree := by
  rw [readQuery]
  rcases h with h | h | ⟨h, hsel⟩
  · rw [decodeQuery_reservedOp (.inl h)]
  · rw [decodeQuery_reservedOp (.inr h)]
  · rw [decodeQuery_reservedSelector h hsel]

theorem readQuery_busy (qw : BitVec 8) {s : State} (hb : s.seq.ph ≠ .idle) : readQuery qw s = .next s.reportFree := by
  rw [readQuery]
  split
  · next i hd => exact exec_query_busy (encode_of_decodeQuery hd).1 hb
  · rfl

/-- Settles O40, for instructions and for words on the port. -/
theorem queryWhileBusyAnswersFreely : Obligations.QueryWhileBusyAnswersFreely :=
  ⟨fun s _ _ h hf => hf.elim (exec_query_busy h) fun hwf => exec_illFormed hwf s,
    fun s qw hf => hf.elim (readQuery_busy qw) fun hres => readQuery_reserved hres s⟩

/-! ### Properties of the decoder (R178) -/

section Properties

variable {s : State} (h : s.seq.ph = .idle) (p : Pad) (n : BitVec 4)
include h

/-- PRESSED and RELEASED need a changed bit and a level each. -/
theorem buttonQueries_exclusive : ∃ d pr re : Byte, exec (.isDown p n) s = .next (s.report d) ∧
    exec (.pressed p n) s = .next (s.report pr) ∧ exec (.released p n) s = .next (s.report re) ∧
    ¬ (pr = 0x01 ∧ re = 0x01) ∧ (pr = 0x01 → d = 0x01) ∧ (re = 0x01 → d = 0x00) := by
  refine ⟨_, _, _, exec_isDown_idle h p n, exec_pressed_idle h p n, exec_released_idle h p n, ?_⟩
  rw [isDownAt_buttonMask, pressedAt_buttonMask, releasedAt_buttonMask]
  generalize (s.prev.get p)[buttonIndex n].getLsbD (n.toNat % 8) = changed
  generalize (s.cur.get p)[buttonIndex n].getLsbD (n.toNat % 8) = up
  revert changed up
  decide

/-- The mode nibble is one value. -/
theorem modeQueries_exclusive : ∃ an di : Byte, exec (.isAnalog p n) s = .next (s.report an) ∧
    exec (.isDigital p n) s = .next (s.report di) ∧ ¬ (an = 0x01 ∧ di = 0x01) := by
  refine ⟨_, _, exec_isAnalog_idle h p n, exec_isDigital_idle h p n, ?_⟩
  have true_of_one : ∀ v : Bool, boolByte v = 0x01 → v = true := by decide
  rintro ⟨han, hdi⟩
  have han := true_of_one _ han
  have hdi := true_of_one _ hdi
  rw [modeIsAnalog_eq_decide, decide_eq_true_iff] at han
  rw [modeIsDigital_eq_decide, decide_eq_true_iff, han] at hdi
  cases hdi

end Properties

/-- AXIS reads a raw byte, which may be anything. -/
theorem axis_takes_every_value (p : Pad) {sel : BitVec 4} (v : Byte) (hsel : sel.toNat < 4) :
    ∃ s : State, s.seq.ph = .idle ∧ exec (.axis p sel) s = .next (s.report v) := by
  refine ⟨State.reset.write (.cur p (axisByte (axisIndex sel))) v, rfl, ?_⟩
  have hv : ((State.reset.write (.cur p (axisByte (axisIndex sel))) v).cur.get p)[axisByte (axisIndex sel)] = v :=
    read_write_same State.reset (.cur p (axisByte (axisIndex sel))) v
  rw [exec_axis_idle rfl p sel hsel, hv]

/-- An answer that does not read the record of the port is the same when asked again. -/
theorem answer_repeatable {s t : State} {f : State → Byte} (hi : s.seq.ph = .idle) (hf : ∀ v, f (s.report v) = f s)
    (ht : answer (f s) s = .next t) : answer (f t) t = .next t := by
  rw [answer_idle hi] at ht
  cases ht
  rw [hf, answer_idle (by exact hi), report_report]

/-- No query reads the record of the one before it. -/
theorem query_repeatable {s t : State} {i : Instr} {qw : BitVec 8} (h : encode i = .query qw)
    (hwf : i.wellFormed = true) (hi : s.seq.ph = .idle) (ht : exec i s = .next t) : exec i t = .next t := by
  cases i <;> simp only [encode, reduceCtorEq] at h
  case isDown p n =>
    exact answer_repeatable (f := fun s => boolByte (isDownAt s p (buttonIndex n) (buttonMask n))) hi (fun _ => rfl) ht
  case pressed p n =>
    exact answer_repeatable (f := fun s => boolByte (pressedAt s p (buttonIndex n) (buttonMask n))) hi (fun _ => rfl) ht
  case released p n =>
    exact answer_repeatable (f := fun s => boolByte (releasedAt s p (buttonIndex n) (buttonMask n))) hi (fun _ => rfl) ht
  case axis p sel =>
    have hexec (s : State) : exec (.axis p sel) s = answer (s.cur.get p)[axisByte (axisIndex sel)] s :=
      if_pos (of_decide_eq_true hwf)
    rw [hexec] at ht ⊢
    exact answer_repeatable (f := fun s => (s.cur.get p)[axisByte (axisIndex sel)]) hi (fun _ => rfl) ht
  case isAnalog p sel => exact answer_repeatable (f := fun s => boolByte (modeIsAnalog s p)) hi (fun _ => rfl) ht
  case isDigital p sel => exact answer_repeatable (f := fun s => boolByte (modeIsDigital s p)) hi (fun _ => rfl) ht

/-- Settles O41, clause by clause. -/
theorem decoderProperties : Obligations.DecoderProperties :=
  ⟨fun _ p n hi => buttonQueries_exclusive hi p n, fun _ p sel hi => modeQueries_exclusive hi p sel,
    fun p _ v => axis_takes_every_value p v, fun _ _ _ _ h hwf hi ht => query_repeatable h hwf hi ht,
    and_buttonMask_eq_zero_iff⟩

end Sys2Proof.Machine
end

section
/-! PROOFS. `BUSY` from acceptance to completion (spec/42_session_ops.md R150 to R152, R159): an operation that the run
laws carry to its last tick is busy on every edge before it, since an idle engine that is offered nothing stays idle. -/

namespace Sys2Proof.Machine

open Sys2Proof.Safety

/-- An edge that neither resets nor offers anything. -/
def quietEdge : EdgeInputs := { (default : EdgeInputs) with rst := false, cmdValid := false }

theorem runEdges_quiet_idle (n : Nat) : ∀ {s t : State}, s.seq.ph = .idle →
    runEdges (List.replicate n quietEdge) s = .next t → t.seq.ph = .idle := by
  induction n with
  | zero =>
    intro s t hi h
    cases h
    exact hi
  | succ n ih =>
    intro s t hi h
    have hedge : clockEdge quietEdge s = .next { s with done := false } := clockEdge_idle rfl hi
    rw [List.replicate_succ, runEdges, hedge, andThen_next] at h
    exact ih (by exact hi) h

/-- An edge between two busy states moves no buffer and raises no `DONE`. -/
theorem clockEdge_busy_to_busy {inp : EdgeInputs} {s t : State} (hr : inp.rst = false) (hs : s.seq.ph ≠ .idle)
    (ht : t.seq.ph ≠ .idle) (h : clockEdge inp s = .next t) : t.done = false ∧ t.arch = s.arch := by
  constructor
  · rcases clockEdge_ends_or_done_false h with ⟨-, -, hi, -⟩ | ⟨hd, -⟩
    · exact absurd hi ht
    · exact hd
  · rw [clockEdge_busy hr hs] at h
    rcases advance_ends_or_keeps_arch h with ⟨op, -, rfl⟩ | ⟨harch, -⟩
    · exact absurd rfl ht
    · exact harch

section BusyUntil

/-- From the accepting edge `e` the operation is still busy after any `D - 1` edges. -/
def BusyAt (s0 : State) (e : EdgeInputs) (D : Nat) : Prop :=
  ∀ es : List EdgeInputs, NoReset es → es.length + 1 = D → ∃ u, runEdges (e :: es) s0 = .next u ∧ u.seq.ph ≠ .idle

variable {s0 u : State} {e : EdgeInputs} {D : Nat} (hD : BusyAt s0 e D)
include hD

/-- Then it is busy after any fewer edges: followed by quiet ones they are a run of `D - 1`. -/
theorem BusyAt.shorter {es : List EdgeInputs} (hr : NoReset es) (hlen : es.length < D) :
    ∃ t, runEdges (e :: es) s0 = .next t ∧ t.seq.ph ≠ .idle := by
  have hr' : NoReset (es ++ List.replicate (D - 1 - es.length) quietEdge) := by
    intro f hf
    rcases List.mem_append.1 hf with hf | hf
    · exact hr f hf
    · rw [List.eq_of_mem_replicate hf]
      rfl
  obtain ⟨v, hv, hb⟩ := hD _ hr' (by simp; omega)
  rw [← List.cons_append, runEdges_append] at hv
  obtain ⟨t, ht, hq⟩ := andThen_eq_next hv
  exact ⟨t, ht, fun hi => hb (runEdges_quiet_idle _ hi hq)⟩

/-- And no buffer has moved since the acceptance. -/
theorem BusyAt.keeps (hu : clockEdge e s0 = .next u) (hd : u.done = false) (es : List EdgeInputs) :
    NoReset es → es.length < D →
    ∃ t, runEdges (e :: es) s0 = .next t ∧ t.busy = true ∧ t.done = false ∧ t.arch = u.arch := by
  induction es using List.reverseRecOn with
  | nil =>
    intro hr hlen
    obtain ⟨t, ht, hb⟩ := hD.shorter hr hlen
    have htu : t = u := by
      rw [runEdges, hu] at ht
      exact (Host.Outcome.next.inj ht).symm
    subst htu
    exact ⟨t, ht, (busy_eq_true t).2 hb, hd, rfl⟩
  | append_singleton es f ih =>
    intro hr hlen
    have hr0 : NoReset es := fun g hg => hr g (List.mem_append_left _ hg)
    obtain ⟨t, ht, hb⟩ := hD.shorter hr hlen
    obtain ⟨t0, ht0, hb0, -, harch⟩ := ih hr0 (by simp at hlen; omega)
    have hlast : clockEdge f t0 = .next t := by
      rw [← List.cons_append, runEdges_append, ht0, andThen_next, runEdges] at ht
      exact (andThen_pure _).symm.trans ht
    obtain ⟨hd', ha⟩ := clockEdge_busy_to_busy (hr f (by simp)) ((busy_eq_true t0).1 hb0) hb hlast
    exact ⟨t, ht, (busy_eq_true t).2 hb, hd', ha.trans harch⟩

end BusyUntil

/-! ### The operations -/

section Operations

variable {s : State} {e : EdgeInputs} {p : Pad} {a b : Byte} {op : TxnOp} (hi : s.seq.ph = .idle)
  (htp : s.tp.positive) (h2 : p = .pad2 → s.cfg.hasAtt2 = true) (ho : Offers e (startInstr op p a b))
include hi h2 ho

theorem clockEdge_accepts : clockEdge e s = .next (started op p a b { s with done := false }) :=
  (clockEdge_idle_offers hi ho).trans (exec_start_ok (s := { s with done := false }) hi h2)

include htp

/-- An operation is busy until its first transaction ends. -/
theorem busyAt_transaction : BusyAt s e (txnTicks s.tp) := by
  intro es hr hlen
  have h := (Reach.firstTransactionOf hr hi htp h2 ho (by omega) rfl).1
  rw [List.take_of_length_le (by omega)] at h
  exact ⟨_, h, by simp [onTick]⟩

/-- A bracket is busy until its third transaction ends. -/
theorem busyAt_bracket (hb : op.IsBracket) : BusyAt s e (3 * txnTicks s.tp) := by
  intro es hr hlen
  have h := (Reach.bracket hb hr hi htp h2 ho (by omega) rfl rfl).1
  rw [List.take_of_length_le (by omega)] at h
  exact ⟨_, h, by simp [onTick]⟩

end Operations

/-- Settles O34: acceptance leaves `CUR` alone, and so does every edge while busy (`BusyAt.keeps`). -/
theorem pollStaysBusyUntilCompletion : Obligations.PollStaysBusyUntilCompletion := by
  intro s e edges p a b hi htp h2 ho hr hlen
  obtain ⟨t, ht, hb, hd, harch⟩ := (busyAt_transaction (op := .poll) hi htp h2 ho).keeps
    (clockEdge_accepts (op := .poll) hi h2 ho) rfl edges hr hlen
  exact ⟨t, ht, hb, hd, congrArg Arch.cur harch⟩

/-- Settles O57: acceptance leaves the architectural state alone, and so does every edge while busy
(`BusyAt.keeps`). -/
theorem bracketStaysBusyUntilCompletion : Obligations.BracketStaysBusyUntilCompletion := by
  intro s e edges p a b hi htp h2 ho hr hlen
  have bracket {op : TxnOp} (hb : op.IsBracket) (ho : Offers e (startInstr op p a b)) :
      ∃ t, runEdges (e :: edges) s = .next t ∧ t.busy = true ∧ t.done = false ∧ t.arch = s.arch := by
    obtain ⟨t, ht, hbusy, hd, harch⟩ := (busyAt_bracket hi htp h2 ho hb).keeps
      (clockEdge_accepts hi h2 ho) (by simp) edges hr hlen
    refine ⟨t, ht, hbusy, hd, harch.trans ?_⟩
    rcases hb with rfl | rfl <;> rfl
  rcases ho with ho | ho
  · exact bracket (op := .setMode) (.inl rfl) ho
  · exact bracket (op := .enMotors) (.inr rfl) ho

end Sys2Proof.Machine
end
